-- ==== Sys2Proof/Config.lean ====
section
/-! DEFINITION. What one build of the block fixes (`CAUSE_W`) and the free values: constants with no body,
about which nothing can be proved. -/

namespace Sys2Proof

/-- `CAUSE_W`, the width of the opaque cause (00_scope.md R8, D14): OPEN, any natural number, 0 allowed.
It has no body, so what is proved holds for every width (log 1). -/
opaque Config.causeW : Nat

/-- The free value number `n`, of width `w`: what a register that the spec leaves unspecified holds after a reset
edge (70_reset_and_hazards.md R220, 93_implementation_defined.md U5). It has no body (log 3). -/
opaque Config.freeBits (w n : Nat) : BitVec w

end Sys2Proof
end

