-- ==== Sys2Proof/Word.lean ====
section
/-! DEFINITION. The word types and the fixed parameters (00_scope.md R7, R9). -/

namespace Sys2Proof

/-- A value of `N = 64` bits (R7). -/
abbrev Word := BitVec 64

/-- One byte of a stream (R7, R51). -/
abbrev Byte := BitVec 8

/-- The payload of a byte, `G = 7` bits (R7, R80). -/
abbrev Payload := BitVec 7

/-- The opaque cause of a read error, `CAUSE_W` bits (R8). -/
abbrev Cause := BitVec Config.causeW

/-- `MAXW`, the overflow threshold: the greatest number of bytes of an encoding (R7). -/
abbrev maxW : Nat := 10

/-- `G`, the payload bits of a byte (R7). -/
abbrev groupW : Nat := 7

end Sys2Proof
end

