-- ==== Sys2Proof/Syntax.lean ====
section
/-! DEFINITION. The instructions: one constructor for each row of spec/opcode_table.json, and the words that the
block's ports carry. A row is one transfer on one port (00_scope.md R15; log 7). -/

namespace Sys2Proof

/-- Which codec of R2 a unit belongs to: bit 1 of the operation code (30_encoding.md R91). With "encoder" or
"decoder" it names a unit: ENCU and DECU are unsigned, ENCS and DECS signed. -/
inductive Codec where
  | unsigned
  | signed
  deriving DecidableEq, Repr

/-- The rows of spec/opcode_table.json. A row's operands are the fields of its encoding and, for the two-bit codes,
the other wires of the same port that R94 and R95 name (log 7). -/
inductive Instr where
  /-- ENCU: the command `0:val` (R110). -/
  | encu (val : Word)
  /-- DECU: the command `1:val`; `val` is ignored (R120, R92). -/
  | decu (val : Word)
  /-- ENCS: the command `2:val` (R140). -/
  | encs (val : Word)
  /-- DECS: the command `3:val`; `val` is ignored (R150, R92). -/
  | decs (val : Word)
  /-- DECU.CONT: DECU reads a byte with `C = 1` and payload `p` (R121, R123). -/
  | decuCont (p : Payload)
  /-- DECU.TERM: DECU reads a byte with `C = 0` and payload `p` (R122). -/
  | decuTerm (p : Payload)
  /-- DECS.CONT: DECS reads a byte with `C = 1` and payload `p` (R151, R153). -/
  | decsCont (p : Payload)
  /-- DECS.TERM_POS: DECS reads a byte with `C = 0` and payload `p`, whose bit 6 (`S`) is 0 (R152). -/
  | decsTermPos (p : Payload)
  /-- DECS.TERM_NEG: DECS reads a byte with `C = 0` and payload `p`, whose bit 6 (`S`) is 1 (R152). -/
  | decsTermNeg (p : Payload)
  /-- ENCU.OUT_CONT: the consumer takes from ENCU a byte with `C = 1` and payload `p` (R112). -/
  | encuOutCont (p : Payload)
  /-- ENCU.OUT_LAST: the consumer takes from ENCU a byte with `C = 0` and payload `p` (R112). -/
  | encuOutLast (p : Payload)
  /-- ENCS.OUT_CONT: the consumer takes from ENCS a byte with `C = 1` and payload `p` (R142). -/
  | encsOutCont (p : Payload)
  /-- ENCS.OUT_LAST: the consumer takes from ENCS a byte with `C = 0` and payload `p` (R142). -/
  | encsOutLast (p : Payload)
  /-- SRC.BYTE: the source of decoder `c` answers a read attempt with `BYTE(b)` (R94). -/
  | srcByte (c : Codec) (b : Byte)
  /-- SRC.EOF: the source of decoder `c` answers with `EOF` (R94). -/
  | srcEof (c : Codec)
  /-- SRC.ERR: the source of decoder `c` answers with `ERR(k)` (R94). -/
  | srcErr (c : Codec) (k : Cause)
  /-- SRC.ERR_ALIAS: code 3, treated exactly as `ERR(k)` (R94). -/
  | srcErrAlias (c : Codec) (k : Cause)
  /-- RES.OK: the host takes from decoder `c` a result of status OK (R95, R174). -/
  | resOk (c : Codec)
  /-- RES.OVERFLOW: the host takes from decoder `c` a result of status OVERFLOW (R95, R174). -/
  | resOverflow (c : Codec)
  /-- RES.SRC_FAIL: the host takes from decoder `c` a result of status SRC_FAIL (R95, R174). -/
  | resSrcFail (c : Codec)
  deriving DecidableEq, Repr

/-- The bits one port carries in one transfer (10_state.md R28), by the four formats of the table. A byte of a
source port has two views, as the table has: the byte itself (BYTE8) and the outcome code with its two data buses
(SRC_KIND2). -/
inductive PortWord where
  /-- CMD66: a command word on the command port (R90). -/
  | command (w : BitVec 66)
  /-- BYTE8: a byte on the output port of encoder `c`. -/
  | outByte (c : Codec) (b : Byte)
  /-- BYTE8: a byte on the source port of decoder `c`. -/
  | inByte (c : Codec) (b : Byte)
  /-- SRC_KIND2: `src_kind`, `src_byte`, `src_cause` of decoder `c` (R94). -/
  | outcome (c : Codec) (kind : BitVec 2) (byte : Byte) (cause : Cause)
  /-- RES_STATUS2: `res_status` of decoder `c` (R95). -/
  | status (c : Codec) (code : BitVec 2)
  deriving DecidableEq, Repr

end Sys2Proof
end

