-- ==== Sys2Proof/WellFormed.lean ====
section
/-! DEFINITION. Which instructions an encoding of the table can spell. -/

namespace Sys2Proof

/-- The payloads the rows admit. `P` is seven bits in every row (30_encoding.md R80); DECS.TERM_POS fixes its top bit
`S` to 0 and DECS.TERM_NEG to 1 (30_encoding.md R98, opcode_table.json). Every other operand is free: every `val` is
legal (R92) and no byte value is illegal (R98). -/
def Instr.wellFormed : Instr → Bool
  | .decsTermPos p => !p.getLsbD 6
  | .decsTermNeg p => p.getLsbD 6
  | .encu _ => true
  | .decu _ => true
  | .encs _ => true
  | .decs _ => true
  | .decuCont _ => true
  | .decuTerm _ => true
  | .decsCont _ => true
  | .encuOutCont _ => true
  | .encuOutLast _ => true
  | .encsOutCont _ => true
  | .encsOutLast _ => true
  | .srcByte _ _ => true
  | .srcEof _ => true
  | .srcErr _ _ => true
  | .srcErrAlias _ _ => true
  | .resOk _ => true
  | .resOverflow _ => true
  | .resSrcFail _ => true

end Sys2Proof
end

