-- ==== Sys2Proof/Decode.lean ====
section
/-! DEFINITION. The fields of a byte, the decoder from the words of a port to an instruction, the encoder back, and
the numbering of spec/opcode_table.json. -/

namespace Sys2Proof

/-- The continuation flag `C`, bit 7 of a byte (30_encoding.md R80). -/
def contFlag (b : Byte) : Bool := b.getLsbD 7

/-- The payload `P`, bits 6:0 of a byte (30_encoding.md R80). -/
def payload (b : Byte) : Payload := b.extractLsb' 0 7

/-- The sign flag `S`, bit 6 of a byte, the top bit of `P` (30_encoding.md R80). -/
def signFlag (b : Byte) : Bool := b.getLsbD 6

/-- The byte `{C, P}` (30_encoding.md R80). -/
def mkByte (cont : Bool) (p : Payload) : Byte := BitVec.ofBool cont ++ p

/-- The command word `{op, val}`, `op` in bits 65:64 (30_encoding.md R90). -/
def commandWord (op : BitVec 2) (val : Word) : BitVec 66 := op ++ val

/-- Why a port's word is no instruction. -/
inductive DecodeError where
  /-- `res_status = 3` is never driven (30_encoding.md R95). -/
  | statusNeverDriven
  deriving DecidableEq, Repr

/-- A command word (30_encoding.md R90, R91): every value of `op` selects an operation (R92). -/
def decodeCommand (w : BitVec 66) : Instr :=
  let val : Word := w.extractLsb' 0 64
  match w.getLsbD 65, w.getLsbD 64 with
  | false, false => .encu val
  | false, true => .decu val
  | true, false => .encs val
  | true, true => .decs val

/-- A byte taken from an encoder, by its class (30_encoding.md R80). -/
def decodeOutByte (c : Codec) (b : Byte) : Instr :=
  match c, contFlag b with
  | .unsigned, true => .encuOutCont (payload b)
  | .unsigned, false => .encuOutLast (payload b)
  | .signed, true => .encsOutCont (payload b)
  | .signed, false => .encsOutLast (payload b)

/-- A byte read by a decoder, by its class (30_encoding.md R98): DECU looks at bit 7 only, DECS in a terminating byte
at bit 6 too. -/
def decodeInByte (c : Codec) (b : Byte) : Instr :=
  match c, contFlag b, signFlag b with
  | .unsigned, true, _ => .decuCont (payload b)
  | .unsigned, false, _ => .decuTerm (payload b)
  | .signed, true, _ => .decsCont (payload b)
  | .signed, false, false => .decsTermPos (payload b)
  | .signed, false, true => .decsTermNeg (payload b)

/-- An outcome of a read attempt (30_encoding.md R94): the data bus that the code does not call for is ignored. -/
def decodeOutcome (c : Codec) (kind : BitVec 2) (byte : Byte) (cause : Cause) : Instr :=
  match kind.getLsbD 1, kind.getLsbD 0 with
  | false, false => .srcByte c byte
  | false, true => .srcEof c
  | true, false => .srcErr c cause
  | true, true => .srcErrAlias c cause

/-- A status on a result port (30_encoding.md R95). -/
def decodeStatus (c : Codec) (code : BitVec 2) : Except DecodeError Instr :=
  match code.getLsbD 1, code.getLsbD 0 with
  | false, false => .ok (.resOk c)
  | false, true => .ok (.resOverflow c)
  | true, false => .ok (.resSrcFail c)
  | true, true => .error .statusNeverDriven

/-- The decoder: total on the words of every port; the port fixes the format. -/
def decode : PortWord → Except DecodeError Instr
  | .command w => .ok (decodeCommand w)
  | .outByte c b => .ok (decodeOutByte c b)
  | .inByte c b => .ok (decodeInByte c b)
  | .outcome c kind byte cause => .ok (decodeOutcome c kind byte cause)
  | .status c code => decodeStatus c code

/-- The encoder: an instruction as a word of its port. A data bus that R94 says is ignored carries zero. -/
def encode : Instr → PortWord
  | .encu val => .command (commandWord 0#2 val)
  | .decu val => .command (commandWord 1#2 val)
  | .encs val => .command (commandWord 2#2 val)
  | .decs val => .command (commandWord 3#2 val)
  | .decuCont p => .inByte .unsigned (mkByte true p)
  | .decuTerm p => .inByte .unsigned (mkByte false p)
  | .decsCont p => .inByte .signed (mkByte true p)
  | .decsTermPos p => .inByte .signed (mkByte false p)
  | .decsTermNeg p => .inByte .signed (mkByte false p)
  | .encuOutCont p => .outByte .unsigned (mkByte true p)
  | .encuOutLast p => .outByte .unsigned (mkByte false p)
  | .encsOutCont p => .outByte .signed (mkByte true p)
  | .encsOutLast p => .outByte .signed (mkByte false p)
  | .srcByte c b => .outcome c 0#2 b 0#_
  | .srcEof c => .outcome c 1#2 0#8 0#_
  | .srcErr c k => .outcome c 2#2 0#8 k
  | .srcErrAlias c k => .outcome c 3#2 0#8 k
  | .resOk c => .status c 0#2
  | .resOverflow c => .status c 1#2
  | .resSrcFail c => .status c 2#2

/-- The word that the host's numbering `(nbits, w)` of spec/opcode_table.json stands for. The table gives a row its
width and no port, and rows of one width share their bits, so a port has to be chosen (log 6): 66 bits (72 in whole
bytes) are a command word; 8 bits are a byte on DECS's source port, the port whose classes look at most bits; 2 bits
are an outcome code there, its data buses zero. -/
def tableWord (nbits w : Nat) : Option PortWord :=
  match nbits with
  | 66 => if w < 2 ^ 66 then some (.command (BitVec.ofNat 66 w)) else none
  | 72 => if w < 2 ^ 66 then some (.command (BitVec.ofNat 66 w)) else none
  | 8 => if w < 2 ^ 8 then some (.inByte .signed (BitVec.ofNat 8 w)) else none
  | 2 => if w < 2 ^ 2 then some (.outcome .signed (BitVec.ofNat 2 w) 0#8 0#_) else none
  | _ => none

/-- The instruction the decoder reads from a word numbered as spec/opcode_table.json numbers it. -/
def decodeTableWord (nbits w : Nat) : Option Instr :=
  match tableWord nbits w with
  | none => none
  | some pw =>
    match decode pw with
    | .ok i => some i
    | .error _ => none

end Sys2Proof
end

