-- ==== Sys2Proof/Machine/State.lean ====
section
/-! DEFINITION. The state as plain data: the fourteen registers of 10_state.md R20, the environment's side of the
ports, and the state after reset. -/

namespace Sys2Proof.Machine

/-- An encoder's `st` (10_state.md R23). -/
inductive EncSt where
  | idle
  | emit
  deriving DecidableEq, Repr

/-- A decoder's `st` (10_state.md R24). -/
inductive DecSt where
  | idle
  | reading
  | done
  | failed
  deriving DecidableEq, Repr

/-- A decoder's `kind`, meaningful only in FAILED (10_state.md R24). -/
inductive FailKind where
  | overflow
  | ioError
  deriving DecidableEq, Repr

/-- The status of a decode (30_encoding.md R95). -/
inductive Status where
  | ok
  | overflow
  | srcFail
  deriving DecidableEq, Repr

/-- What a decoder hands over on its result port (10_state.md R32). -/
structure DecResult where
  value : Word
  status : Status
  cause : Cause
  deriving DecidableEq, Repr

/-- An encoder unit: the registers `st` and `rem` (10_state.md R20, R23). `out` is no register: it is the output
stream, the bytes the consumer has been handed so far, oldest first (20_memory.md R56; log 12). -/
structure EncUnit where
  st : EncSt
  rem : Word
  out : List Byte
  deriving DecidableEq, Repr

/-- A decoder unit: the registers `st`, `acc`, `cnt`, `kind`, `cause` (10_state.md R20, R24). `taken` and `results`
are no registers: they are the bytes consumed from the byte source so far (its read position is their number,
20_memory.md R66) and the results handed to the host so far, oldest first (log 12). -/
structure DecUnit where
  st : DecSt
  acc : Word
  cnt : BitVec 4
  kind : FailKind
  cause : Cause
  taken : List Byte
  results : List DecResult
  deriving DecidableEq, Repr

/-- Every input port of the block at one rising edge of `clk` (10_state.md R28). -/
structure Inputs where
  rst : Bool
  cmdValid : Bool
  cmdOp : BitVec 2
  cmdVal : Word
  euReady : Bool
  esReady : Bool
  duSrcValid : Bool
  duSrcKind : BitVec 2
  duSrcByte : Byte
  duSrcCause : Cause
  dsSrcValid : Bool
  dsSrcKind : BitVec 2
  dsSrcByte : Byte
  dsSrcCause : Cause
  duResReady : Bool
  dsResReady : Bool
  deriving DecidableEq, Repr

/-- One move of the environment (log 4): a clock edge with all its input wires, or one transfer offered on one port
with the word it carries (00_scope.md R15: a step is one handshake). -/
inductive Stimulus where
  | edge (inp : Inputs)
  | transfer (w : PortWord)
  deriving DecidableEq, Repr

/-- Why the model stops where the spec's rules give no step. -/
inductive Fault where
  /-- Raised by a read attempt of a decoder that is in READING with `cnt` above 10 (`DecUnit.attempt`): the rules R121
  to R125 and R151 to R155 cover `cnt` from 0 to 10, and no run reaches such a state (10_state.md R35 b). Safe: the
  model stops (log 10). -/
  | countOutOfRange
  deriving DecidableEq, Repr

/-- Why the model gives a word no meaning. -/
inductive Refusal where
  /-- Raised by an arm of `exec` whose instruction has no meaning yet; no arm does. Safe. -/
  | notModelled (mnemonic : String)
  /-- Raised by `step` on a port word that is no instruction: only a result status that is never driven (30_encoding.md
  R95). Safe: the model stops (log 11). -/
  | undecodable (e : DecodeError)
  deriving DecidableEq, Repr

/-- The whole state: the four units, which hold the block's fourteen registers (10_state.md R20); `agenda`, what the
environment will do, first move first (log 4); `freeIdx`, the counter behind the free values of a reset edge (log 3). -/
structure State where
  encu : EncUnit
  decu : DecUnit
  encs : EncUnit
  decs : DecUnit
  agenda : List Stimulus
  freeIdx : Nat
  deriving DecidableEq, Repr

/-- An encoder after reset (10_state.md R33): IDLE; `rem` is unspecified there, and named 0 here (DESIGN CHOICE, log 2). -/
def EncUnit.atReset : EncUnit := { st := .idle, rem := 0#64, out := [] }

/-- A decoder after reset (10_state.md R33): IDLE; the other registers are unspecified there, and named 0 and OVERFLOW
here (DESIGN CHOICE, log 2). -/
def DecUnit.atReset : DecUnit :=
  { st := .idle, acc := 0#64, cnt := 0#4, kind := .overflow, cause := 0#_, taken := [], results := [] }

/-- The machine right after reset (10_state.md R33): all four units in IDLE. -/
def State.reset : State :=
  { encu := EncUnit.atReset, decu := DecUnit.atReset, encs := EncUnit.atReset, decs := DecUnit.atReset,
    agenda := [], freeIdx := 0 }

end Sys2Proof.Machine
end

