-- ==== Sys2Proof/Machine/Flags.lean ====
section
/-! DEFINITION. The status and the readiness a unit reports: there is no flags register (10_state.md R26); these are
functions of the registers alone (R29 to R32). -/

namespace Sys2Proof.Machine

/-- The code of a status on the wires (30_encoding.md R95). -/
def Status.code : Status → BitVec 2
  | .ok => 0#2
  | .overflow => 1#2
  | .srcFail => 2#2

/-- `res_status` while `res_valid = 1`, and none while it is 0 (10_state.md R32). -/
def DecUnit.status? (d : DecUnit) : Option Status :=
  match d.st, d.kind with
  | .idle, _ => none
  | .reading, _ => none
  | .done, _ => some .ok
  | .failed, .overflow => some .overflow
  | .failed, .ioError => some .srcFail

/-- The result a decoder offers: `res_value = acc`, `res_status`, `res_cause = cause` (10_state.md R32). -/
def DecUnit.offer? (d : DecUnit) : Option DecResult :=
  d.status?.map fun status => { value := d.acc, status := status, cause := d.cause }

/-- An encoder's bit of `cmd_ready` (10_state.md R29). -/
def EncUnit.ready (e : EncUnit) : Bool := e.st == .idle

/-- A decoder's bit of `cmd_ready` (10_state.md R29). -/
def DecUnit.ready (d : DecUnit) : Bool := d.st == .idle

/-- A decoder's `src_ready` (10_state.md R31). -/
def DecUnit.srcReady (d : DecUnit) : Bool := d.st == .reading

end Sys2Proof.Machine
end

