-- ==== Sys2Proof/Machine/Operands.lean ====
section
/-! DEFINITION. The arithmetic of the four operations (00_scope.md R11, 42_command_and_result.md R180), the byte an
encoder presents, and the value of an encoding. -/

namespace Sys2Proof.Machine

/-- `lsr64(v, n)`: logical right shift (00_scope.md R11). -/
def lsr64 (v : Word) (n : Nat) : Word := v >>> n

/-- `asr64(v, n)`: arithmetic right shift (00_scope.md R11). -/
def asr64 (v : Word) (n : Nat) : Word := v.sshiftRight n

/-- `shl64(v, n)`: left shift that discards what moves to position 64 or above (00_scope.md R11). -/
def shl64 (v : Word) (n : Nat) : Word := v <<< n

/-- `ones_from(n)`: ones at bit `n` and above, zero for `n >= 64` (00_scope.md R11). -/
def onesFrom (n : Nat) : Word := shl64 (BitVec.allOnes 64) n

/-- `zext_64` of a payload, at bit offset `7 * i`: what group `i` contributes to a value (30_encoding.md R82). -/
def groupAt (p : Payload) (i : Nat) : Word := shl64 (p.setWidth 64) (groupW * i)

/-- The low seven bits of what is left to emit, `p = r[6:0]` (40_unsigned_codec.md R111, 41_signed_codec.md R141). -/
def lowGroup (r : Word) : Payload := r.extractLsb' 0 7

/-- What is left after one byte: a logical shift by 7 in ENCU (40_unsigned_codec.md R111), an arithmetic one in ENCS
(41_signed_codec.md R141). -/
def nextRem : Codec → Word → Word
  | .unsigned, r => lsr64 r groupW
  | .signed, r => asr64 r groupW

/-- Whether more bytes follow: in ENCU, `r' != 0` (40_unsigned_codec.md R111); in ENCS, `not done`, with
`done = (r' = 0 and s = 0) or (r' = ALL1 and s = 1)` and `s = p[6]` (41_signed_codec.md R141). -/
def moreFollows : Codec → Word → Bool
  | .unsigned, r => nextRem .unsigned r != 0#64
  | .signed, r =>
    let r' := nextRem .signed r
    let s := (lowGroup r).getLsbD 6
    !((r' == 0#64 && !s) || (r' == BitVec.allOnes 64 && s))

/-- The byte an encoder presents, `next_byte_u` (40_unsigned_codec.md R111) and `next_byte_s` (41_signed_codec.md
R141). -/
def nextByte (c : Codec) (r : Word) : Byte := mkByte (moreFollows c r) (lowGroup r)

/-- The bytes of an operation from the remainder `r` on, at most `fuel` of them. -/
def encodeFuel (c : Codec) : Nat → Word → List Byte
  | 0, _ => []
  | fuel + 1, r =>
    if moreFollows c r then nextByte c r :: encodeFuel c fuel (nextRem c r) else [nextByte c r]

/-- `enc_u(v)` (40_unsigned_codec.md R115) and `enc_s(v)` (41_signed_codec.md R145): the byte sequence one operation
emits, by the recursion of those rules, which ends within `MAXW` bytes (R113, R143). -/
def encodeValue (c : Codec) (v : Word) : List Byte := encodeFuel c maxW v

/-- `uval` of the bytes from number `i` on (30_encoding.md R82). -/
def uvalFrom : Nat → List Byte → Word
  | _, [] => 0#64
  | i, b :: bs => groupAt (payload b) i ||| uvalFrom (i + 1) bs

/-- `uval` of an encoding (30_encoding.md R82). -/
def uval (bs : List Byte) : Word := uvalFrom 0 bs

/-- The sign flag of the last byte, `S_(n-1)` (30_encoding.md R83). -/
def lastSign (bs : List Byte) : Bool :=
  match bs.getLast? with
  | some b => signFlag b
  | none => false

/-- `sval` of an encoding, before it is read as two's complement (30_encoding.md R83). -/
def sval (bs : List Byte) : Word :=
  uval bs ||| (if lastSign bs then onesFrom (groupW * bs.length) else 0#64)

/-- The value of an encoding ended by a terminating byte: `uval` for DECU (40_unsigned_codec.md R128), `sval` for DECS
(41_signed_codec.md R158). -/
def valueOf : Codec → List Byte → Word
  | .unsigned, bs => uval bs
  | .signed, bs => sval bs

end Sys2Proof.Machine
end

