-- ==== Sys2Proof/Machine/Ops.lean ====
section
/-! DEFINITION. The named operations over the registers: acceptance of a command, the hand-over of a byte, a read
attempt with each outcome, the failure entry, the result transfer, and the reset of a unit. -/

namespace Sys2Proof.Machine

/-- The answer of an operation, over the model's own stop reasons. -/
abbrev Answer (α : Type) := Host.Outcome α Fault Refusal

/-- The encoder of a codec: ENCU or ENCS (00_scope.md R2). -/
def State.enc (s : State) : Codec → EncUnit
  | .unsigned => s.encu
  | .signed => s.encs

/-- The decoder of a codec: DECU or DECS (00_scope.md R2). -/
def State.dec (s : State) : Codec → DecUnit
  | .unsigned => s.decu
  | .signed => s.decs

/-- Writes one encoder's registers; no other unit is touched (10_state.md R20). -/
def State.setEnc (s : State) (c : Codec) (e : EncUnit) : State :=
  match c with
  | .unsigned => { s with encu := e }
  | .signed => { s with encs := e }

/-- Writes one decoder's registers; no other unit is touched (10_state.md R20). -/
def State.setDec (s : State) (c : Codec) (d : DecUnit) : State :=
  match c with
  | .unsigned => { s with decu := d }
  | .signed => { s with decs := d }

/-- The state with what the environment has left to do. -/
def State.setAgenda (s : State) (a : List Stimulus) : State := { s with agenda := a }

/-- A step of one encoder, which changes only that unit (00_scope.md R15). -/
def State.onEnc (s : State) (c : Codec) (f : EncUnit → EncUnit) : Answer State :=
  .next (s.setEnc c (f (s.enc c)))

/-- A step of one decoder, which changes only that unit (00_scope.md R15). -/
def State.onDec (s : State) (c : Codec) (f : DecUnit → DecUnit) : Answer State :=
  .next (s.setDec c (f (s.dec c)))

/-- Acceptance by an encoder in IDLE (42_command_and_result.md R171); a busy encoder does not accept and nothing
changes (R173). -/
def EncUnit.accept (val : Word) (e : EncUnit) : EncUnit :=
  match e.st with
  | .idle => { e with st := .emit, rem := val }
  | .emit => e

/-- Acceptance by a decoder in IDLE (42_command_and_result.md R172); a busy decoder does not accept and nothing
changes (R173). -/
def DecUnit.accept (d : DecUnit) : DecUnit :=
  match d.st with
  | .idle => { d with st := .reading, acc := 0#64, cnt := 0#4, kind := .overflow, cause := 0#_ }
  | .reading => d
  | .done => d
  | .failed => d

/-- The consumer takes the byte `b` from an encoder: `Emit`, with the step of 40_unsigned_codec.md R112 and
41_signed_codec.md R142. The byte transferred is the byte presented (20_memory.md R56): a transfer of another byte, or
from an encoder in IDLE, does not take place and nothing changes (log 8). -/
def EncUnit.emitByte (c : Codec) (b : Byte) (e : EncUnit) : EncUnit :=
  match e.st with
  | .idle => e
  | .emit =>
    if nextByte c e.rem = b then
      { st := if contFlag b then .emit else .idle, rem := nextRem c e.rem, out := e.out ++ [b] }
    else e

/-- Failure entry (60_exceptions.md R195), the one operation behind both `raise`s: all its effects but the write of
`cnt`, which is the raising rule's. -/
def DecUnit.fail (kind : FailKind) (cause : Cause) (d : DecUnit) : DecUnit :=
  { d with acc := 0#64, kind := kind, cause := cause, st := .failed }

/-- `raise Overflow()` (60_exceptions.md R195). -/
def DecUnit.raiseOverflow (d : DecUnit) : DecUnit := d.fail .overflow 0#_

/-- `raise SourceFailure(c)` (60_exceptions.md R195). -/
def DecUnit.raiseSourceFailure (cause : Cause) (d : DecUnit) : DecUnit := d.fail .ioError cause

/-- The way back from DONE and from FAILED alike (60_exceptions.md R198): the host takes a result of the given status
(42_command_and_result.md R174). A result that is not offered is not taken and nothing changes (log 8). -/
def DecUnit.handOver (status : Status) (d : DecUnit) : DecUnit :=
  match d.offer? with
  | none => d
  | some r => if r.status = status then { d with st := .idle, results := d.results ++ [r] } else d

/-- One read attempt (20_memory.md R54): it happens exactly in READING, and `f` is the rule of its outcome; outside
READING nothing is consumed and nothing changes. The rules cover `cnt` from 0 to 10, which R35 b makes every case; the
model stops above (log 10). -/
def DecUnit.attempt (f : DecUnit → DecUnit) (d : DecUnit) : Answer DecUnit :=
  match d.st with
  | .reading => if d.cnt.toNat ≤ maxW then .next (f d) else .fault .countOutOfRange
  | .idle => .next d
  | .done => .next d
  | .failed => .next d

/-- A read attempt of one decoder, which changes only that unit (00_scope.md R15). -/
def State.attempt (s : State) (c : Codec) (f : DecUnit → DecUnit) : Answer State :=
  match (s.dec c).attempt f with
  | .next d => .next (s.setDec c d)
  | .fault r => .fault r
  | .refused r => .refused r

/-- A byte is consumed: it is counted, and it never comes again (20_memory.md R60, 10_state.md R22). -/
def DecUnit.consume (b : Byte) (d : DecUnit) : DecUnit :=
  { d with cnt := d.cnt + 1#4, taken := d.taken ++ [b] }

/-- `acc | shl64(zext_64(b[6:0]), 7 * cnt)`: a byte's payload joins the value (40_unsigned_codec.md R121, R122,
41_signed_codec.md R151, R152). -/
def DecUnit.gather (p : Payload) (d : DecUnit) : Word := d.acc ||| groupAt p d.cnt.toNat

/-- A continuation byte of payload `p`: within the budget it joins the value (40_unsigned_codec.md R121,
41_signed_codec.md R151); as the eleventh byte it is Overflow (R123, R153). -/
def DecUnit.readCont (p : Payload) (d : DecUnit) : DecUnit :=
  if d.cnt.toNat < maxW then
    { d.consume (mkByte true p) with acc := d.gather p }
  else (d.consume (mkByte true p)).raiseOverflow

/-- A terminating byte of payload `p` without sign extension (40_unsigned_codec.md R122; 41_signed_codec.md R152 with
`b[6] = 0`). -/
def DecUnit.readTerm (p : Payload) (d : DecUnit) : DecUnit :=
  { d.consume (mkByte false p) with acc := d.gather p, st := .done }

/-- A terminating byte of payload `p` with sign extension: `off = 7 * (cnt + 1)` and `a | ones_from(off)`
(41_signed_codec.md R152 with `b[6] = 1`). -/
def DecUnit.readTermSigned (p : Payload) (d : DecUnit) : DecUnit :=
  { d.consume (mkByte false p) with
    acc := d.gather p ||| onesFrom (groupW * (d.cnt.toNat + 1)), st := .done }

/-- Any byte, by its class: bit 7 decides for both decoders, and in a terminating byte bit 6 for DECS
(30_encoding.md R98). -/
def DecUnit.readByte (c : Codec) (b : Byte) (d : DecUnit) : DecUnit :=
  match c, contFlag b, signFlag b with
  | _, true, _ => d.readCont (payload b)
  | .unsigned, false, _ => d.readTerm (payload b)
  | .signed, false, false => d.readTerm (payload b)
  | .signed, false, true => d.readTermSigned (payload b)

/-- A clean end of input: DONE, `acc` and `cnt` unchanged, no sign extension (40_unsigned_codec.md R124,
41_signed_codec.md R154). -/
def DecUnit.endOfInput (d : DecUnit) : DecUnit := { d with st := .done }

/-- The kind a free bit stands for. -/
def FailKind.ofBit (b : BitVec 1) : FailKind := if b = 0#1 then .overflow else .ioError

/-- Reset of an encoder (70_reset_and_hazards.md R220): IDLE, and `rem` counts as unspecified afterwards, so it takes
the free value number `n` (log 3). What the consumer has been handed stays handed (R221). -/
def EncUnit.resetTo (n : Nat) (e : EncUnit) : EncUnit :=
  { e with st := .idle, rem := Config.freeBits 64 n }

/-- Reset of a decoder (70_reset_and_hazards.md R220): IDLE, and the other registers count as unspecified afterwards,
so they take the free values from number `n` on (log 3). Consumed bytes stay consumed (R221). -/
def DecUnit.resetTo (n : Nat) (d : DecUnit) : DecUnit :=
  { d with
    st := .idle, acc := Config.freeBits 64 n, cnt := Config.freeBits 4 (n + 1),
    kind := FailKind.ofBit (Config.freeBits 1 (n + 2)), cause := Config.freeBits Config.causeW (n + 3) }

/-- The action of an edge with `rst = 1` (70_reset_and_hazards.md R220): all four units to IDLE, and no other step of
any unit. It uses up ten free values. -/
def State.resetUnits (s : State) : State :=
  { s with
    encu := s.encu.resetTo s.freeIdx, encs := s.encs.resetTo (s.freeIdx + 1),
    decu := s.decu.resetTo (s.freeIdx + 2), decs := s.decs.resetTo (s.freeIdx + 6),
    freeIdx := s.freeIdx + 10 }

end Sys2Proof.Machine
end

