-- ==== Sys2Proof/Machine/Commands.lean ====
section
/-! DEFINITION. The CMD66 rows: the four commands (30_encoding.md R90 to R93). -/

namespace Sys2Proof.Machine

/-- ENCU (40_unsigned_codec.md R110; 42_command_and_result.md R170, R171, R173). -/
def execEncu (val : Word) (s : State) : Answer State := s.onEnc .unsigned (EncUnit.accept val)

/-- DECU (40_unsigned_codec.md R120; 42_command_and_result.md R170, R172, R173); `val` is ignored, it is not stored
and has no effect (30_encoding.md R92). -/
def execDecu (_val : Word) (s : State) : Answer State := s.onDec .unsigned DecUnit.accept

/-- ENCS (41_signed_codec.md R140; 42_command_and_result.md R170, R171, R173). -/
def execEncs (val : Word) (s : State) : Answer State := s.onEnc .signed (EncUnit.accept val)

/-- DECS (41_signed_codec.md R150; 42_command_and_result.md R170, R172, R173); `val` is ignored, it is not stored
and has no effect (30_encoding.md R92). -/
def execDecs (_val : Word) (s : State) : Answer State := s.onDec .signed DecUnit.accept

end Sys2Proof.Machine
end

