-- ==== Sys2Proof/Machine/InBytes.lean ====
section
/-! DEFINITION. The BYTE8 rows of the decoders: a byte read by DECU or DECS, by its class (30_encoding.md R98). -/

namespace Sys2Proof.Machine

/-- DECU.CONT (40_unsigned_codec.md R121, and R123 at `cnt = 10`). -/
def execDecuCont (p : Payload) (s : State) : Answer State := s.attempt .unsigned (DecUnit.readCont p)

/-- DECU.TERM (40_unsigned_codec.md R122, R126, R127). -/
def execDecuTerm (p : Payload) (s : State) : Answer State := s.attempt .unsigned (DecUnit.readTerm p)

/-- DECS.CONT (41_signed_codec.md R151, and R153 at `cnt = 10`). -/
def execDecsCont (p : Payload) (s : State) : Answer State := s.attempt .signed (DecUnit.readCont p)

/-- DECS.TERM_POS (41_signed_codec.md R152 with `b[6] = 0`). -/
def execDecsTermPos (p : Payload) (s : State) : Answer State := s.attempt .signed (DecUnit.readTerm p)

/-- DECS.TERM_NEG (41_signed_codec.md R152 with `b[6] = 1`, R156). -/
def execDecsTermNeg (p : Payload) (s : State) : Answer State := s.attempt .signed (DecUnit.readTermSigned p)

end Sys2Proof.Machine
end

