-- ==== Sys2Proof/Machine/OutBytes.lean ====
section
/-! DEFINITION. The BYTE8 rows of the encoders: a byte taken from ENCU or ENCS (20_memory.md R56). -/

namespace Sys2Proof.Machine

/-- ENCU.OUT_CONT (40_unsigned_codec.md R112, `b[7] = 1`). -/
def execEncuOutCont (p : Payload) (s : State) : Answer State :=
  s.onEnc .unsigned (EncUnit.emitByte .unsigned (mkByte true p))

/-- ENCU.OUT_LAST (40_unsigned_codec.md R112, `b[7] = 0`). -/
def execEncuOutLast (p : Payload) (s : State) : Answer State :=
  s.onEnc .unsigned (EncUnit.emitByte .unsigned (mkByte false p))

/-- ENCS.OUT_CONT (41_signed_codec.md R142, `b[7] = 1`). -/
def execEncsOutCont (p : Payload) (s : State) : Answer State :=
  s.onEnc .signed (EncUnit.emitByte .signed (mkByte true p))

/-- ENCS.OUT_LAST (41_signed_codec.md R142, `b[7] = 0`). -/
def execEncsOutLast (p : Payload) (s : State) : Answer State :=
  s.onEnc .signed (EncUnit.emitByte .signed (mkByte false p))

end Sys2Proof.Machine
end

