-- ==== Sys2Proof/Machine/Outcomes.lean ====
section
/-! DEFINITION. The SRC_KIND2 rows: the outcome of a read attempt on a source port (30_encoding.md R94). -/

namespace Sys2Proof.Machine

/-- SRC.BYTE: the outcome `BYTE(b)`; the step is that of the byte's class (20_memory.md R53, 30_encoding.md R98). -/
def execSrcByte (c : Codec) (b : Byte) (s : State) : Answer State := s.attempt c (DecUnit.readByte c b)

/-- SRC.EOF (40_unsigned_codec.md R124, 41_signed_codec.md R154; 60_exceptions.md R193). -/
def execSrcEof (c : Codec) (s : State) : Answer State := s.attempt c DecUnit.endOfInput

/-- SRC.ERR (40_unsigned_codec.md R125, 41_signed_codec.md R155; 60_exceptions.md R192, R195). -/
def execSrcErr (c : Codec) (k : Cause) (s : State) : Answer State := s.attempt c (DecUnit.raiseSourceFailure k)

/-- SRC.ERR_ALIAS: code 3 is treated exactly as `ERR(src_cause)` (30_encoding.md R94). -/
def execSrcErrAlias (c : Codec) (k : Cause) (s : State) : Answer State :=
  s.attempt c (DecUnit.raiseSourceFailure k)

end Sys2Proof.Machine
end

