-- ==== Sys2Proof/Machine/Results.lean ====
section
/-! DEFINITION. The RES_STATUS2 rows: the host takes a decoder's result (42_command_and_result.md R174; codes:
30_encoding.md R95). -/

namespace Sys2Proof.Machine

/-- RES.OK: a result of status OK is taken (10_state.md R32, 42_command_and_result.md R174). -/
def execResOk (c : Codec) (s : State) : Answer State := s.onDec c (DecUnit.handOver .ok)

/-- RES.OVERFLOW: a result of status OVERFLOW is taken (10_state.md R32, 42_command_and_result.md R174). -/
def execResOverflow (c : Codec) (s : State) : Answer State := s.onDec c (DecUnit.handOver .overflow)

/-- RES.SRC_FAIL: a result of status SRC_FAIL is taken (10_state.md R32, 42_command_and_result.md R174). -/
def execResSrcFail (c : Codec) (s : State) : Answer State := s.onDec c (DecUnit.handOver .srcFail)

end Sys2Proof.Machine
end

