-- ==== Sys2Proof/Machine/Dispatch.lean ====
section
/-! DEFINITION. The dispatch: one arm per row of spec/opcode_table.json, each one call of its meaning. -/

namespace Sys2Proof.Machine

def exec (i : Instr) (s : State) : Host.Outcome State Fault Refusal :=
  match i with
  | .encu val => Sys2Proof.Machine.execEncu val s
  | .decu val => Sys2Proof.Machine.execDecu val s
  | .encs val => Sys2Proof.Machine.execEncs val s
  | .decs val => Sys2Proof.Machine.execDecs val s
  | .decuCont p => Sys2Proof.Machine.execDecuCont p s
  | .decuTerm p => Sys2Proof.Machine.execDecuTerm p s
  | .decsCont p => Sys2Proof.Machine.execDecsCont p s
  | .decsTermPos p => Sys2Proof.Machine.execDecsTermPos p s
  | .decsTermNeg p => Sys2Proof.Machine.execDecsTermNeg p s
  | .encuOutCont p => Sys2Proof.Machine.execEncuOutCont p s
  | .encuOutLast p => Sys2Proof.Machine.execEncuOutLast p s
  | .encsOutCont p => Sys2Proof.Machine.execEncsOutCont p s
  | .encsOutLast p => Sys2Proof.Machine.execEncsOutLast p s
  | .srcByte c b => Sys2Proof.Machine.execSrcByte c b s
  | .srcEof c => Sys2Proof.Machine.execSrcEof c s
  | .srcErr c k => Sys2Proof.Machine.execSrcErr c k s
  | .srcErrAlias c k => Sys2Proof.Machine.execSrcErrAlias c k s
  | .resOk c => Sys2Proof.Machine.execResOk c s
  | .resOverflow c => Sys2Proof.Machine.execResOverflow c s
  | .resSrcFail c => Sys2Proof.Machine.execResSrcFail c s

end Sys2Proof.Machine
end

