-- ==== Sys2Proof/Machine/Ports.lean ====
section
/-! DEFINITION. The ports (10_state.md R28): every output as a function of the registers alone (R29 to R32), and what
the input wires of one clock edge offer to each unit. -/

namespace Sys2Proof.Machine

/-- What an encoder drives on its output port while `valid = 1` (10_state.md R30). -/
structure OutByte where
  byte : Byte
  last : Bool
  deriving DecidableEq, Repr

/-- The output ports (10_state.md R28). A field that is none is a port whose `valid` is 0: the other wires of that port
have no meaning then (R30, R32; log 13). -/
structure Outputs where
  cmdReady : BitVec 4
  eu : Option OutByte
  es : Option OutByte
  duSrcReady : Bool
  dsSrcReady : Bool
  duRes : Option DecResult
  dsRes : Option DecResult
  deriving DecidableEq, Repr

/-- An encoder's output port: `valid = (st = EMIT)`, `byte = next_byte(rem)`, `last = NOT byte[7]` (10_state.md R30). -/
def EncUnit.offer? (c : Codec) (e : EncUnit) : Option OutByte :=
  match e.st with
  | .idle => none
  | .emit => some { byte := nextByte c e.rem, last := !contFlag (nextByte c e.rem) }

/-- `cmd_ready`: bit `u` belongs to the unit of operation code `u` (10_state.md R29). -/
def State.cmdReady (s : State) : BitVec 4 :=
  BitVec.ofBool s.decs.ready ++ BitVec.ofBool s.encs.ready ++ BitVec.ofBool s.decu.ready ++
    BitVec.ofBool s.encu.ready

/-- All output ports (10_state.md R28 to R32). -/
def State.outputs (s : State) : Outputs :=
  { cmdReady := s.cmdReady
    eu := s.encu.offer? .unsigned
    es := s.encs.offer? .signed
    duSrcReady := s.decu.srcReady
    dsSrcReady := s.decs.srcReady
    duRes := s.decu.offer?
    dsRes := s.decs.offer? }

/-- The wires of an edge at which nothing is driven. -/
def Inputs.quiet : Inputs :=
  { rst := false, cmdValid := false, cmdOp := 0#2, cmdVal := 0#64, euReady := false, esReady := false,
    duSrcValid := false, duSrcKind := 0#2, duSrcByte := 0#8, duSrcCause := 0#_,
    dsSrcValid := false, dsSrcKind := 0#2, dsSrcByte := 0#8, dsSrcCause := 0#_,
    duResReady := false, dsResReady := false }

/-- The `ready` input of an encoder's output port. -/
def Inputs.outReady (inp : Inputs) : Codec → Bool
  | .unsigned => inp.euReady
  | .signed => inp.esReady

/-- The `src_valid` input of a decoder. -/
def Inputs.srcValid (inp : Inputs) : Codec → Bool
  | .unsigned => inp.duSrcValid
  | .signed => inp.dsSrcValid

/-- The word on a decoder's source port. -/
def Inputs.srcWord (inp : Inputs) : Codec → PortWord
  | .unsigned => .outcome .unsigned inp.duSrcKind inp.duSrcByte inp.duSrcCause
  | .signed => .outcome .signed inp.dsSrcKind inp.dsSrcByte inp.dsSrcCause

/-- The `res_ready` input of a decoder. -/
def Inputs.resReady (inp : Inputs) : Codec → Bool
  | .unsigned => inp.duResReady
  | .signed => inp.dsResReady

/-- Whether the unit of an operation code is in IDLE: its bit of `cmd_ready` (10_state.md R29). -/
def State.opReady (s : State) (op : BitVec 2) : Bool := s.cmdReady.getLsbD op.toNat

/-- The words transferred at an edge with these inputs, one for each port whose two halves of the handshake are
present BEFORE the edge: the command port (42_command_and_result.md R170), the output ports (20_memory.md R56), the
source ports (R54), the result ports (42_command_and_result.md R174). -/
def State.transfers (s : State) (inp : Inputs) : List PortWord :=
  (if inp.cmdValid && s.opReady inp.cmdOp then [.command (commandWord inp.cmdOp inp.cmdVal)] else []) ++
  outTransfer .unsigned ++ outTransfer .signed ++ srcTransfer .unsigned ++ srcTransfer .signed ++
  resTransfer .unsigned ++ resTransfer .signed
where
  outTransfer (c : Codec) : List PortWord :=
    match (s.enc c).offer? c with
    | none => []
    | some o => if inp.outReady c then [.outByte c o.byte] else []
  srcTransfer (c : Codec) : List PortWord :=
    if (s.dec c).srcReady && inp.srcValid c then [inp.srcWord c] else []
  resTransfer (c : Codec) : List PortWord :=
    match (s.dec c).offer? with
    | none => []
    | some r => if inp.resReady c then [.status c r.status.code] else []

end Sys2Proof.Machine
end

