-- ==== Sys2Proof/Machine/Edge.lean ====
section
/-! DEFINITION. One transfer, and one clock edge as the transfers whose handshakes complete at it. -/

namespace Sys2Proof.Machine

/-- One transfer: the word on the port is decoded and its instruction runs. -/
def runWord (w : PortWord) (s : State) : Answer State :=
  match decode w with
  | .ok i => exec i s
  | .error e => .refused (.undecodable e)

/-- Transfers one after another. -/
def runWords : List PortWord → State → Answer State
  | [], s => .next s
  | w :: ws, s =>
    match runWord w s with
    | .next t => runWords ws t
    | .fault r => .fault r
    | .refused r => .refused r

/-- One rising edge of `clk`: with `rst = 1` the reset action and nothing else (70_reset_and_hazards.md R220); else
every unit whose handshake is complete takes its step (R240). The transfers are fixed before the edge and touch
different units, so their order does not matter (42_command_and_result.md R183; log 9). -/
def clockEdge (inp : Inputs) (s : State) : Answer State :=
  if inp.rst then .next s.resetUnits else runWords (s.transfers inp) s

/-- One move of the environment. -/
def runStimulus (m : Stimulus) (s : State) : Answer State :=
  match m with
  | .edge inp => clockEdge inp s
  | .transfer w => runWord w s

/-- Whether the host offers a command in this move: `cmd_valid = 1` on the wires of an edge, or a word on the command
port (10_state.md R28). -/
def Stimulus.offersCommand : Stimulus → Bool
  | .edge inp => inp.cmdValid
  | .transfer (.command _) => true
  | .transfer (.outByte _ _) => false
  | .transfer (.inByte _ _) => false
  | .transfer (.outcome _ _ _ _) => false
  | .transfer (.status _ _) => false

/-- The host offers a command now, that is, in the environment's next move; with no move left it offers none (log 17). -/
def State.commandOffered (s : State) : Bool :=
  match s.agenda with
  | [] => false
  | m :: _ => m.offersCommand

/-- A run is finished, "the program has ended": all four units are in IDLE and the host offers no command
(42_command_and_result.md R178). -/
def State.finished (s : State) : Bool :=
  s.encu.ready && s.decu.ready && s.encs.ready && s.decs.ready && !s.commandOffered

/-- The decoder in READING, so that its next step is a read attempt: unchanged if it is already there, else as an
acceptance leaves it (42_command_and_result.md R172). -/
def DecUnit.madeReading (d : DecUnit) : DecUnit :=
  match d.st with
  | .reading => d
  | .idle => d.accept
  | .done => { d with st := .idle }.accept
  | .failed => { d with st := .idle }.accept

/-- The unit that a command word selects by `op` (30_encoding.md R91) put in IDLE, so that the command is accepted
(10_state.md R29); nothing else changes. -/
def State.madeIdle (s : State) (w : BitVec 66) : State :=
  match w.getLsbD 65, w.getLsbD 64 with
  | false, false => s.setEnc .unsigned { s.encu with st := .idle }
  | false, true => s.setDec .unsigned { s.decu with st := .idle }
  | true, false => s.setEnc .signed { s.encs with st := .idle }
  | true, true => s.setDec .signed { s.decs with st := .idle }

/-- What a word needs of the block to be fetched from its port: a command is taken only by a unit in IDLE
(42_command_and_result.md R170), a source port is read only in READING (20_memory.md R54). -/
def State.openPort (s : State) : PortWord → State
  | .command w => s.madeIdle w
  | .inByte c _ => s.setDec c (s.dec c).madeReading
  | .outcome c _ _ _ => s.setDec c (s.dec c).madeReading
  | .outByte _ _ => s
  | .status _ _ => s

/-- The word stands as the environment's next move, on a port that the block reads (log 5). -/
def State.withWord (s : State) (w : PortWord) : State :=
  (s.openPort w).setAgenda (.transfer w :: s.agenda)

end Sys2Proof.Machine
end

