-- ==== Sys2Proof/Machine/Step.lean ====
section
/-! DEFINITION. The step: the environment's next move, and the host's way to place an instruction there. -/

namespace Sys2Proof.Machine

/-- One step: the first move of the agenda. With no move left the environment drives nothing, and no unit has a step
(20_memory.md R55, R56); whether the run is then finished is `State.finished` (42_command_and_result.md R178). -/
def step (s : State) : Host.Outcome State Fault Refusal :=
  match s.agenda with
  | [] => .next s
  | m :: rest => runStimulus m (s.setAgenda rest)

/-- The state with the instruction of bits `w`, numbered as spec/opcode_table.json numbers them, as the very next
move (log 5, log 6); unchanged where the table has no row of that width. -/
def State.withFetchWord (s : State) (nbits w : Nat) : State :=
  match tableWord nbits w with
  | none => s
  | some pw => s.withWord pw

end Sys2Proof.Machine
end

