-- ==== Sys2Proof/Safety.lean ====
section
/-! DEFINITION. What claims are stated in: which unit a transfer belongs to, the invariants of 10_state.md R35, what an
operation's bytes spell, when two states agree, and the environments of one operation. -/

namespace Sys2Proof.Machine

/-- The four units (00_scope.md R2). -/
inductive UnitName where
  | encu
  | decu
  | encs
  | decs
  deriving DecidableEq, Repr

/-- The encoder of a codec. -/
def UnitName.enc : Codec → UnitName
  | .unsigned => .encu
  | .signed => .encs

/-- The decoder of a codec. -/
def UnitName.dec : Codec → UnitName
  | .unsigned => .decu
  | .signed => .decs

/-- The unit an instruction is a step of. -/
def unitOf : Instr → UnitName
  | .encu _ => .encu
  | .decu _ => .decu
  | .encs _ => .encs
  | .decs _ => .decs
  | .decuCont _ => .decu
  | .decuTerm _ => .decu
  | .decsCont _ => .decs
  | .decsTermPos _ => .decs
  | .decsTermNeg _ => .decs
  | .encuOutCont _ => .encu
  | .encuOutLast _ => .encu
  | .encsOutCont _ => .encs
  | .encsOutLast _ => .encs
  | .srcByte c _ => UnitName.dec c
  | .srcEof c => UnitName.dec c
  | .srcErr c _ => UnitName.dec c
  | .srcErrAlias c _ => UnitName.dec c
  | .resOk c => UnitName.dec c
  | .resOverflow c => UnitName.dec c
  | .resSrcFail c => UnitName.dec c

/-- The unit a word on a port belongs to: a command word selects its unit by `op` (30_encoding.md R91). -/
def unitOfWord : PortWord → UnitName
  | .command w => unitOf (decodeCommand w)
  | .outByte c _ => UnitName.enc c
  | .inByte c _ => UnitName.dec c
  | .outcome c _ _ _ => UnitName.dec c
  | .status c _ => UnitName.dec c

/-- The instructions that are read attempts (20_memory.md R53). -/
def isRead : Instr → Bool
  | .decuCont _ => true
  | .decuTerm _ => true
  | .decsCont _ => true
  | .decsTermPos _ => true
  | .decsTermNeg _ => true
  | .srcByte _ _ => true
  | .srcEof _ => true
  | .srcErr _ _ => true
  | .srcErrAlias _ _ => true
  | .encu _ => false
  | .decu _ => false
  | .encs _ => false
  | .decs _ => false
  | .encuOutCont _ => false
  | .encuOutLast _ => false
  | .encsOutCont _ => false
  | .encsOutLast _ => false
  | .resOk _ => false
  | .resOverflow _ => false
  | .resSrcFail _ => false

/-- The registers of the unit `u` and its side of the streams are the same in both states. -/
def sameUnit (u : UnitName) (s t : State) : Prop :=
  match u with
  | .encu => t.encu = s.encu
  | .decu => t.decu = s.decu
  | .encs => t.encs = s.encs
  | .decs => t.decs = s.decs

/-- The bytes the running (or just ended) operation has consumed: the last `cnt` of all (20_memory.md R66). -/
def DecUnit.opBytes (d : DecUnit) : List Byte := d.taken.drop (d.taken.length - d.cnt.toNat)

/-- Whether a terminating byte with its sign bit set was the last byte consumed by the operation. -/
def DecUnit.endedNegative (d : DecUnit) : Bool :=
  match d.opBytes.getLast? with
  | some b => !contFlag b && signFlag b
  | none => false

/-- The items (a) to (f) of 10_state.md R35 for one decoder. -/
abbrev DecUnit.Inv (c : Codec) (d : DecUnit) : Prop :=
  (d.st ≠ .idle → d.cnt.toNat ≤ 11) ∧
  (d.st = .reading → d.cnt.toNat ≤ 10) ∧
  (d.st = .failed → d.acc = 0#64) ∧
  (d.st = .failed → d.kind = .overflow → d.cnt.toNat = 11) ∧
  (d.st = .reading ∨ d.st = .done ∨ (d.st = .failed ∧ d.kind = .overflow) → d.cause = 0#_) ∧
  (d.st = .reading → d.acc.toNat < 2 ^ (groupW * d.cnt.toNat)) ∧
  (d.st = .done → d.acc.toNat < 2 ^ (groupW * d.cnt.toNat) ∨ (c = .signed ∧ d.endedNegative = true))

/-- 10_state.md R35 for both decoders. -/
abbrev State.Inv (s : State) : Prop := s.decu.Inv .unsigned ∧ s.decs.Inv .signed

/-- Every byte of the list is a continuation byte (30_encoding.md R98). -/
abbrev allCont (bs : List Byte) : Prop := ∀ b ∈ bs, contFlag b = true

/-- What the registers of a decoder that is not in IDLE say of the bytes its operation has consumed: in READING they
are continuation bytes and `acc` is their `uval`; in DONE either the same (a clean end of input) or they are an
encoding and `acc` is its value; in FAILED they are the eleven continuation bytes of Overflow or the bytes before the
read error (40_unsigned_codec.md R128, 41_signed_codec.md R158, 60_exceptions.md R196). -/
def DecUnit.Spells (c : Codec) (d : DecUnit) : Prop :=
  d.st ≠ .idle →
    d.opBytes.length = d.cnt.toNat ∧
    (d.st = .reading → d.cnt.toNat ≤ 10 ∧ allCont d.opBytes ∧ d.acc = uval d.opBytes) ∧
    (d.st = .done →
      (d.cnt.toNat ≤ 10 ∧ allCont d.opBytes ∧ d.acc = uval d.opBytes) ∨
      (∃ bs b, d.opBytes = bs ++ [b] ∧ bs.length ≤ 10 ∧ allCont bs ∧ contFlag b = false ∧
        d.acc = valueOf c d.opBytes)) ∧
    (d.st = .failed → allCont d.opBytes ∧ d.acc = 0#64 ∧
      (d.kind = .overflow → d.cnt.toNat = 11) ∧ (d.kind = .ioError → d.cnt.toNat ≤ 10))

/-- Both decoders spell the bytes they consumed. -/
def State.Spells (s : State) : Prop := s.decu.Spells .unsigned ∧ s.decs.Spells .signed

/-- Two encoders that differ at most in what an IDLE encoder holds in `rem` (10_state.md R36). -/
def EncUnit.Agrees (e f : EncUnit) : Prop :=
  e.st = f.st ∧ e.out = f.out ∧ (e.st ≠ .idle → e.rem = f.rem)

/-- Two decoders that differ at most in what an IDLE decoder holds in its working registers (10_state.md R36). -/
def DecUnit.Agrees (d f : DecUnit) : Prop :=
  d.st = f.st ∧ d.taken = f.taken ∧ d.results = f.results ∧
    (d.st ≠ .idle → d.acc = f.acc ∧ d.cnt = f.cnt ∧ d.kind = f.kind ∧ d.cause = f.cause)

/-- Two states that differ at most in working registers of units in IDLE, and in the free-value counter. -/
def State.Agrees (s t : State) : Prop :=
  s.encu.Agrees t.encu ∧ s.decu.Agrees t.decu ∧ s.encs.Agrees t.encs ∧ s.decs.Agrees t.decs ∧
    s.agenda = t.agenda

/-- Two answers that nobody can tell apart: next states that agree, or the same stop. -/
def answersAgree (a b : Answer State) : Prop :=
  match a, b with
  | .next s, .next t => s.Agrees t
  | .fault r, .fault q => r = q
  | .refused r, .refused q => r = q
  | _, _ => False

/-- `n` steps of the machine, stopping at the first fault or refusal: the host's `Host.Core.run` of `core`, written
over `step` itself. -/
def runSteps : Nat → State → Answer State
  | 0, s => .next s
  | n + 1, s =>
    match step s with
    | .next t => runSteps n t
    | .fault r => .fault r
    | .refused r => .refused r

/-- The edge at which only the consumer of encoder `c` is ready. -/
def takeEdge (c : Codec) : Stimulus :=
  match c with
  | .unsigned => .edge { Inputs.quiet with euReady := true }
  | .signed => .edge { Inputs.quiet with esReady := true }

/-- The edge at which only the source of decoder `c` answers, with this outcome on its wires (30_encoding.md R94). -/
def answerEdge (c : Codec) (kind : BitVec 2) (byte : Byte) (cause : Cause) : Stimulus :=
  match c with
  | .unsigned =>
    .edge { Inputs.quiet with duSrcValid := true, duSrcKind := kind, duSrcByte := byte, duSrcCause := cause }
  | .signed =>
    .edge { Inputs.quiet with dsSrcValid := true, dsSrcKind := kind, dsSrcByte := byte, dsSrcCause := cause }

/-- The edge at which the source of decoder `c` answers `BYTE(b)`. -/
def byteEdge (c : Codec) (b : Byte) : Stimulus := answerEdge c 0#2 b 0#_

/-- The edge at which only the host's command is offered (10_state.md R28). -/
def commandEdge (op : BitVec 2) (val : Word) : Stimulus :=
  .edge { Inputs.quiet with cmdValid := true, cmdOp := op, cmdVal := val }

/-- The edge at which only the host is ready for the result of decoder `c`. -/
def resultEdge (c : Codec) : Stimulus :=
  match c with
  | .unsigned => .edge { Inputs.quiet with duResReady := true }
  | .signed => .edge { Inputs.quiet with dsResReady := true }

/-- The operation code of an encoder (30_encoding.md R91). -/
def encOp : Codec → BitVec 2
  | .unsigned => 0#2
  | .signed => 2#2

/-- The operation code of a decoder (30_encoding.md R91). -/
def decOp : Codec → BitVec 2
  | .unsigned => 1#2
  | .signed => 3#2

end Sys2Proof.Machine
end

