-- ==== Sys2Proof/Certificates/Slice0/Obligations.lean ====
section
/-! DEFINITION. The statements for the provers. Each docstring names the rules of spec/ it formalises, or the log entry
where it states the model's own choice. Everywhere `out`, `taken` and `results` are the model's records of the streams
(log 12) and `agenda` is the model's form of the environment (log 4); no rule of the spec names them. -/

open Sys2Proof Sys2Proof.Machine

/-! ### Words and instructions -/

/-- Decode and encode agree on every well-formed instruction (30_encoding.md R80, R90, R91, R94, R95). -/
def Obligations.EncodedInstructionDecodesBack : Prop :=
  ∀ i : Instr, i.wellFormed = true → decode (encode i) = .ok i

/-- R91: the four operation codes, whatever `val` is; bit 0 of the code is 1 for a decoder, bit 1 for the signed
codec. -/
def Obligations.OperationCodesSelectUnits : Prop :=
  ∀ val : Word,
    decode (.command (commandWord 0#2 val)) = .ok (.encu val) ∧
    decode (.command (commandWord 1#2 val)) = .ok (.decu val) ∧
    decode (.command (commandWord 2#2 val)) = .ok (.encs val) ∧
    decode (.command (commandWord 3#2 val)) = .ok (.decs val)

/-- R90, R92: every 66-bit word is a command, and it is the encoding of the one instruction it decodes to. -/
def Obligations.EveryCommandWordIsOneCommand : Prop :=
  ∀ w : BitVec 66, ∃ i : Instr, i.wellFormed = true ∧ decode (.command w) = .ok i ∧ encode i = .command w ∧
    ∃ (op : BitVec 2) (val : Word), w = commandWord op val ∧ w.toNat = op.toNat * 2 ^ 64 + val.toNat

/-- R98: DECU tells bytes apart by bit 7 only, DECS by bit 7 and in a terminating byte by bit 6; every byte belongs to
exactly one class of each decoder, and its class spells it back. -/
def Obligations.EveryByteHasOneClass : Prop :=
  ∀ b : Byte,
    decode (.inByte .unsigned b) = .ok (if b.getLsbD 7 then .decuCont (payload b) else .decuTerm (payload b)) ∧
    decode (.inByte .signed b) = .ok (if b.getLsbD 7 then .decsCont (payload b)
      else if b.getLsbD 6 then .decsTermNeg (payload b) else .decsTermPos (payload b)) ∧
    (∀ c, ∃ i : Instr, i.wellFormed = true ∧ decode (.inByte c b) = .ok i ∧ encode i = .inByte c b) ∧
    (∀ c, ∃ i : Instr, i.wellFormed = true ∧ decode (.outByte c b) = .ok i ∧ encode i = .outByte c b)

/-- R94: the four outcome codes; the bus a code does not call for is ignored; code 3 is treated exactly as `ERR`. -/
def Obligations.OutcomeCodes : Prop :=
  ∀ (c : Codec) (b : Byte) (k : Cause),
    decode (.outcome c 0#2 b k) = .ok (.srcByte c b) ∧
    decode (.outcome c 1#2 b k) = .ok (.srcEof c) ∧
    decode (.outcome c 2#2 b k) = .ok (.srcErr c k) ∧
    decode (.outcome c 3#2 b k) = .ok (.srcErrAlias c k) ∧
    ∀ s : State, exec (.srcErrAlias c k) s = exec (.srcErr c k) s

/-- R95: the status codes 0, 1 and 2, and that no offered result has code 3. That the word of code 3 decodes to no
instruction is the model's own choice (log 11). -/
def Obligations.StatusCodes : Prop :=
  (∀ c, decode (.status c 0#2) = .ok (.resOk c) ∧ decode (.status c 1#2) = .ok (.resOverflow c) ∧
    decode (.status c 2#2) = .ok (.resSrcFail c) ∧ decode (.status c 3#2) = .error .statusNeverDriven) ∧
  Status.ok.code = 0#2 ∧ Status.overflow.code = 1#2 ∧ Status.srcFail.code = 2#2 ∧
  (∀ (d : DecUnit) (r : DecResult), d.offer? = some r → r.status.code ≠ 3#2)

/-- Words written out from the spec: the command words of 95_test_vectors.md S1, H5, S3, the bytes of S2, S4, U9, X5,
and the codes of R94 and R95. -/
def Obligations.WrittenWordsDecode : Prop :=
  decode (.command 0x00000000000000100#66) = .ok (.encu 256#64) ∧
  decode (.command 0x1deadbeefdeadbeef#66) = .ok (.decu 0xdeadbeefdeadbeef#64) ∧
  decode (.command 0x2ffffffffffffff00#66) = .ok (.encs 0xffffffffffffff00#64) ∧
  decode (.command 0x30000000000000000#66) = .ok (.decs 0#64) ∧
  decode (.inByte .unsigned 0x80#8) = .ok (.decuCont 0#7) ∧
  decode (.inByte .unsigned 0x02#8) = .ok (.decuTerm 2#7) ∧
  decode (.inByte .signed 0x80#8) = .ok (.decsCont 0#7) ∧
  decode (.inByte .signed 0x3f#8) = .ok (.decsTermPos 0x3f#7) ∧
  decode (.inByte .signed 0x40#8) = .ok (.decsTermNeg 0x40#7) ∧
  decode (.outByte .unsigned 0xac#8) = .ok (.encuOutCont 0x2c#7) ∧
  decode (.outByte .unsigned 0x02#8) = .ok (.encuOutLast 2#7) ∧
  decode (.outByte .signed 0xbf#8) = .ok (.encsOutCont 0x3f#7) ∧
  decode (.outByte .signed 0x7e#8) = .ok (.encsOutLast 0x7e#7)

/-- A placed word is the very next instruction (the model's own, log 5 and log 6). -/
def Obligations.PlacedWordRunsNext : Prop :=
  ∀ (s : State) (nbits w : Nat) (i : Instr), decodeTableWord nbits w = some i →
    step (s.withFetchWord nbits w) = exec i ((s.withFetchWord nbits w).setAgenda s.agenda)

/-- A step runs the decoded instruction, and the transfer is used up (R15; the agenda is the model's, log 4). -/
def Obligations.StepRunsDecodedInstruction : Prop :=
  ∀ (s : State) (w : PortWord) (rest : List Stimulus) (i : Instr),
    s.agenda = .transfer w :: rest → decode w = .ok i →
    i.wellFormed = true ∧ step s = exec i (s.setAgenda rest)

/-- What an edge without reset does (R54, R56, R170, R174, R240; the agenda is the model's, log 4, the edge as transfers
its reading, log 9). (1) A word is transferred exactly when its port's two halves of the handshake are present before
the edge. (2) Every unit with a transfer ends as its own instruction, run on the state before the edge, leaves it, however
many ports transfer; every other unit is unchanged. (3) In a state that meets R35 the edge completes. (4) With one
transfer the step is exec of its instruction, with none only the move is used up. -/
def Obligations.EdgeRunsItsTransfer : Prop :=
  (∀ (s : State) (inp : Inputs) (w : PortWord), w ∈ s.transfers inp ↔
    (inp.cmdValid = true ∧ w = .command (commandWord inp.cmdOp inp.cmdVal) ∧
      ((inp.cmdOp = 0#2 ∧ s.encu.st = .idle) ∨ (inp.cmdOp = 1#2 ∧ s.decu.st = .idle) ∨
        (inp.cmdOp = 2#2 ∧ s.encs.st = .idle) ∨ (inp.cmdOp = 3#2 ∧ s.decs.st = .idle))) ∨
    (inp.euReady = true ∧ s.encu.st = .emit ∧ w = .outByte .unsigned (nextByte .unsigned s.encu.rem)) ∨
    (inp.esReady = true ∧ s.encs.st = .emit ∧ w = .outByte .signed (nextByte .signed s.encs.rem)) ∨
    (inp.duSrcValid = true ∧ s.decu.st = .reading ∧
      w = .outcome .unsigned inp.duSrcKind inp.duSrcByte inp.duSrcCause) ∨
    (inp.dsSrcValid = true ∧ s.decs.st = .reading ∧
      w = .outcome .signed inp.dsSrcKind inp.dsSrcByte inp.dsSrcCause) ∨
    (inp.duResReady = true ∧
      ((s.decu.st = .done ∧ w = .status .unsigned 0#2) ∨
        (s.decu.st = .failed ∧ s.decu.kind = .overflow ∧ w = .status .unsigned 1#2) ∨
        (s.decu.st = .failed ∧ s.decu.kind = .ioError ∧ w = .status .unsigned 2#2))) ∨
    (inp.dsResReady = true ∧
      ((s.decs.st = .done ∧ w = .status .signed 0#2) ∨
        (s.decs.st = .failed ∧ s.decs.kind = .overflow ∧ w = .status .signed 1#2) ∨
        (s.decs.st = .failed ∧ s.decs.kind = .ioError ∧ w = .status .signed 2#2)))) ∧
  (∀ (s t : State) (inp : Inputs) (rest : List Stimulus), s.agenda = .edge inp :: rest → inp.rst = false →
    step s = .next t →
    t.agenda = rest ∧
    (∀ w ∈ s.transfers inp, ∃ i r, decode w = .ok i ∧ exec i s = .next r ∧ sameUnit (unitOf i) r t) ∧
    (∀ u : UnitName, (∀ w ∈ s.transfers inp, unitOfWord w ≠ u) → sameUnit u s t)) ∧
  (∀ (s : State) (inp : Inputs) (rest : List Stimulus), s.agenda = .edge inp :: rest → inp.rst = false → s.Inv →
    ∃ t, step s = .next t) ∧
  (∀ (s : State) (inp : Inputs) (rest : List Stimulus), s.agenda = .edge inp :: rest → inp.rst = false →
    (∀ (w : PortWord) (i : Instr), s.transfers inp = [w] → decode w = .ok i →
      step s = exec i (s.setAgenda rest)) ∧
    (s.transfers inp = [] → step s = .next (s.setAgenda rest)))

/-- Nothing driven, nothing changed: at an edge with every input low no unit has a step, nor when the environment has
no move left (R55, R56; the agenda is the model's, log 4). And the end of a run (R178): it is finished exactly when all
four units are in IDLE and the host offers no command in its next move (log 17), and then no edge without reset,
whatever its other wires, and no transfer of an instruction changes anything but that the move is used up; for a byte
from an encoder in IDLE and a result from a decoder in IDLE, transfers that R56 and R174 do not have, that is the model's
own choice (log 8). -/
def Obligations.QuietEnvironmentChangesNothing : Prop :=
  (∀ s : State, s.agenda = [] → step s = .next s) ∧
  (∀ (s : State) (rest : List Stimulus), s.agenda = .edge Inputs.quiet :: rest →
    step s = .next (s.setAgenda rest)) ∧
  (∀ s : State, s.finished = true ↔
    s.encu.st = .idle ∧ s.decu.st = .idle ∧ s.encs.st = .idle ∧ s.decs.st = .idle ∧
      (∀ inp rest, s.agenda = .edge inp :: rest → inp.cmdValid = false) ∧
      (∀ w rest, s.agenda ≠ .transfer (.command w) :: rest)) ∧
  (∀ (s : State) (inp : Inputs) (rest : List Stimulus), s.finished = true → s.agenda = .edge inp :: rest →
    inp.rst = false → step s = .next (s.setAgenda rest)) ∧
  (∀ (s : State) (w : PortWord) (i : Instr) (rest : List Stimulus), s.finished = true →
    s.agenda = .transfer w :: rest → decode w = .ok i → step s = .next (s.setAgenda rest))

/-! ### Starting an operation -/

/-- R171: acceptance by an encoder in IDLE; nothing else changes, and the unit then presents its first byte. -/
def Obligations.EncoderAcceptsCommand : Prop :=
  ∀ (s : State) (val : Word),
    (s.encu.st = .idle →
      exec (.encu val) s = .next { s with encu := { s.encu with st := .emit, rem := val } } ∧
      ({ s.encu with st := .emit, rem := val } : EncUnit).offer? .unsigned =
        some { byte := nextByte .unsigned val, last := !contFlag (nextByte .unsigned val) }) ∧
    (s.encs.st = .idle →
      exec (.encs val) s = .next { s with encs := { s.encs with st := .emit, rem := val } } ∧
      ({ s.encs with st := .emit, rem := val } : EncUnit).offer? .signed =
        some { byte := nextByte .signed val, last := !contFlag (nextByte .signed val) })

/-- R172: acceptance by a decoder in IDLE; `val` is ignored, nothing else changes, and the unit then makes read
attempts. -/
def Obligations.DecoderAcceptsCommand : Prop :=
  ∀ (s : State) (val : Word),
    (s.decu.st = .idle → ∃ t, exec (.decu val) s = .next t ∧
      t = { s with decu := { s.decu with st := .reading, acc := 0#64, cnt := 0#4, kind := .overflow, cause := 0#_ } } ∧
      t.outputs.duSrcReady = true) ∧
    (s.decs.st = .idle → ∃ t, exec (.decs val) s = .next t ∧
      t = { s with decs := { s.decs with st := .reading, acc := 0#64, cnt := 0#4, kind := .overflow, cause := 0#_ } } ∧
      t.outputs.dsSrcReady = true)

/-- R173: a unit that is not in IDLE has its bit of `cmd_ready` 0, does not accept, and nothing changes. -/
def Obligations.BusyUnitDoesNotAccept : Prop :=
  ∀ (s : State) (val : Word),
    (s.encu.st ≠ .idle → s.cmdReady.getLsbD 0 = false ∧ exec (.encu val) s = .next s) ∧
    (s.decu.st ≠ .idle → s.cmdReady.getLsbD 1 = false ∧ exec (.decu val) s = .next s) ∧
    (s.encs.st ≠ .idle → s.cmdReady.getLsbD 2 = false ∧ exec (.encs val) s = .next s) ∧
    (s.decs.st ≠ .idle → s.cmdReady.getLsbD 3 = false ∧ exec (.decs val) s = .next s)

/-- R92, R238: the operand of a decode command has no effect in any state. -/
def Obligations.DecodeOperandHasNoEffect : Prop :=
  ∀ (s : State) (v w : Word), exec (.decu v) s = exec (.decu w) s ∧ exec (.decs v) s = exec (.decs w) s

/-! ### Encoders -/

/-- R111 as arithmetic: an ENCU in EMIT presents a byte whose payload is `r mod 2^7` and whose continuation flag says
that the remainder `r / 2^7` is not zero. -/
def Obligations.EncuPresentedByte : Prop :=
  (∀ e : EncUnit, e.st = .emit → e.offer? .unsigned =
    some { byte := nextByte .unsigned e.rem, last := !contFlag (nextByte .unsigned e.rem) }) ∧
  ∀ r : Word,
    (payload (nextByte .unsigned r)).toNat = r.toNat % 128 ∧
    (nextRem .unsigned r).toNat = r.toNat / 128 ∧
    (contFlag (nextByte .unsigned r) = true ↔ r.toNat / 128 ≠ 0) ∧
    (nextByte .unsigned r).toNat = (if r.toNat / 128 ≠ 0 then 128 else 0) + r.toNat % 128

/-- R141 as arithmetic: an ENCS in EMIT presents a byte whose payload is `r mod 2^7`; the remainder is the floor of the
signed value over `2^7`, and the byte is the last when the remainder is 0 with the sign flag 0 or -1 with the sign
flag 1. -/
def Obligations.EncsPresentedByte : Prop :=
  (∀ e : EncUnit, e.st = .emit → e.offer? .signed =
    some { byte := nextByte .signed e.rem, last := !contFlag (nextByte .signed e.rem) }) ∧
  ∀ r : Word,
    (payload (nextByte .signed r)).toNat = r.toNat % 128 ∧
    (nextRem .signed r).toInt = r.toInt / 128 ∧
    (contFlag (nextByte .signed r) = false ↔
      (r.toInt / 128 = 0 ∧ r.getLsbD 6 = false) ∨ (r.toInt / 128 = -1 ∧ r.getLsbD 6 = true))

/-- R112: the consumer takes the presented byte; with `eu_ready = 0` nothing of ENCU changes, whatever the other wires
of the edge say. -/
def Obligations.EncuStep : Prop :=
  (∀ (s : State) (p : Payload), s.encu.st = .emit → nextByte .unsigned s.encu.rem = mkByte true p →
    exec (.encuOutCont p) s = .next { s with encu :=
      { st := .emit, rem := nextRem .unsigned s.encu.rem, out := s.encu.out ++ [mkByte true p] } }) ∧
  (∀ (s : State) (p : Payload), s.encu.st = .emit → nextByte .unsigned s.encu.rem = mkByte false p →
    exec (.encuOutLast p) s = .next { s with encu :=
      { st := .idle, rem := nextRem .unsigned s.encu.rem, out := s.encu.out ++ [mkByte false p] } }) ∧
  (∀ (s t : State) (inp : Inputs) (rest : List Stimulus), s.encu.st = .emit → s.agenda = .edge inp :: rest →
    inp.rst = false → inp.euReady = false → step s = .next t → t.encu = s.encu)

/-- R142: the same for ENCS. -/
def Obligations.EncsStep : Prop :=
  (∀ (s : State) (p : Payload), s.encs.st = .emit → nextByte .signed s.encs.rem = mkByte true p →
    exec (.encsOutCont p) s = .next { s with encs :=
      { st := .emit, rem := nextRem .signed s.encs.rem, out := s.encs.out ++ [mkByte true p] } }) ∧
  (∀ (s : State) (p : Payload), s.encs.st = .emit → nextByte .signed s.encs.rem = mkByte false p →
    exec (.encsOutLast p) s = .next { s with encs :=
      { st := .idle, rem := nextRem .signed s.encs.rem, out := s.encs.out ++ [mkByte false p] } }) ∧
  (∀ (s t : State) (inp : Inputs) (rest : List Stimulus), s.encs.st = .emit → s.agenda = .edge inp :: rest →
    inp.rst = false → inp.esReady = false → step s = .next t → t.encs = s.encs)

/-- A byte or a result that is not the one offered is not transferred, and nothing changes (the model's own reading of a
transfer that cannot take place, log 8; R56, R174). -/
def Obligations.UnofferedTransferChangesNothing : Prop :=
  (∀ (s : State) (p : Payload), (s.encu.st = .idle ∨ nextByte .unsigned s.encu.rem ≠ mkByte true p) →
    exec (.encuOutCont p) s = .next s) ∧
  (∀ (s : State) (p : Payload), (s.encu.st = .idle ∨ nextByte .unsigned s.encu.rem ≠ mkByte false p) →
    exec (.encuOutLast p) s = .next s) ∧
  (∀ (s : State) (p : Payload), (s.encs.st = .idle ∨ nextByte .signed s.encs.rem ≠ mkByte true p) →
    exec (.encsOutCont p) s = .next s) ∧
  (∀ (s : State) (p : Payload), (s.encs.st = .idle ∨ nextByte .signed s.encs.rem ≠ mkByte false p) →
    exec (.encsOutLast p) s = .next s) ∧
  (∀ (s : State) (c : Codec), (s.dec c).status? ≠ some .ok → exec (.resOk c) s = .next s) ∧
  (∀ (s : State) (c : Codec), (s.dec c).status? ≠ some .overflow → exec (.resOverflow c) s = .next s) ∧
  (∀ (s : State) (c : Codec), (s.dec c).status? ≠ some .srcFail → exec (.resSrcFail c) s = .next s)

/-- R113, R143: after `k` steps the remainder is the operand shifted right by `7 * k`; it ends at the latest at the
tenth byte. -/
def Obligations.RemainderAfterSteps : Prop :=
  ∀ (v : Word) (k : Nat),
    (nextRem .unsigned)^[k] v = lsr64 v (7 * k) ∧ (nextRem .signed)^[k] v = asr64 v (7 * k) ∧
    (∀ c, 9 ≤ k → moreFollows c ((nextRem c)^[k] v) = false)

/-- R115, R145: the recursion of the whole operation, which does not depend on the model's bound. -/
def Obligations.EncodingRecursion : Prop :=
  ∀ (c : Codec) (v : Word),
    encodeValue c v =
      if moreFollows c v then mkByte true (v.extractLsb' 0 7) :: encodeValue c (nextRem c v)
      else [mkByte false (v.extractLsb' 0 7)]

/-- R115, R145: byte `i` of an encoding has bit 7 set unless it is the last, and carries bits `7*i+6` down to `7*i` of
the operand (of its sign extension, for ENCS). -/
def Obligations.EncodingBytes : Prop :=
  ∀ (c : Codec) (v : Word) (i : Nat) (h : i < (encodeValue c v).length),
    (encodeValue c v)[i] = mkByte (decide (i + 1 < (encodeValue c v).length))
      (match c with
       | .unsigned => (v.setWidth 70).extractLsb' (7 * i) 7
       | .signed => (v.signExtend 70).extractLsb' (7 * i) 7)

/-- R84: the length of ENCU's encoding is the least `n >= 1` with `v < 2^(7n)`, and it is at most 10. -/
def Obligations.UnsignedLengthIsLeast : Prop :=
  ∀ v : Word,
    1 ≤ (encodeValue .unsigned v).length ∧ (encodeValue .unsigned v).length ≤ 10 ∧
    v.toNat < 2 ^ (7 * (encodeValue .unsigned v).length) ∧
    ∀ n, 1 ≤ n → v.toNat < 2 ^ (7 * n) → (encodeValue .unsigned v).length ≤ n

/-- R85: the length of ENCS's encoding is the least `n >= 1` with `-2^(7n-1) <= x < 2^(7n-1)`, and it is at most 10. -/
def Obligations.SignedLengthIsLeast : Prop :=
  ∀ v : Word,
    1 ≤ (encodeValue .signed v).length ∧ (encodeValue .signed v).length ≤ 10 ∧
    (-(2 : Int) ^ (7 * (encodeValue .signed v).length - 1) ≤ v.toInt ∧
      v.toInt < 2 ^ (7 * (encodeValue .signed v).length - 1)) ∧
    ∀ n, 1 ≤ n → -(2 : Int) ^ (7 * n - 1) ≤ v.toInt → v.toInt < 2 ^ (7 * n - 1) →
      (encodeValue .signed v).length ≤ n

/-- R84, R85: no encoding of a value is shorter than the one the encoder produces, and up to nine bytes (where no
payload bit is dropped) an encoding of that length is the one the encoder produces. -/
def Obligations.EncodingIsShortestAndUnique : Prop :=
  ∀ (c : Codec) (bs : List Byte) (b : Byte), allCont bs → contFlag b = false →
    (encodeValue c (valueOf c (bs ++ [b]))).length ≤ bs.length + 1 ∧
    (bs.length ≤ 8 → (encodeValue c (valueOf c (bs ++ [b]))).length = bs.length + 1 →
      encodeValue c (valueOf c (bs ++ [b])) = bs ++ [b])

/-- R131, R161 on values: decoding the encoding of a value gives the value. -/
def Obligations.ValueOfEncoding : Prop :=
  ∀ (c : Codec) (v : Word), valueOf c (encodeValue c v) = v

/-- R178, R115, R145, R112, R142: a whole encoder operation. From IDLE, one command and a ready consumer hand over the
encoding of the operand, byte by byte, and leave the unit in IDLE; no other unit changes. -/
def Obligations.EncoderOperation : Prop :=
  ∀ (c : Codec) (v : Word) (s : State) (rest : List Stimulus), (s.enc c).st = .idle →
    s.agenda = commandEdge (encOp c) v :: (List.replicate (encodeValue c v).length (takeEdge c) ++ rest) →
    ∃ rem, runSteps (1 + (encodeValue c v).length) s =
      .next ((s.setEnc c { st := .idle, rem := rem, out := (s.enc c).out ++ encodeValue c v }).setAgenda rest)

/-! ### Decoders -/

/-- R121: a continuation byte within the budget.
The record `taken` is the model's (log 12). -/
def Obligations.DecuContinuation : Prop :=
  ∀ (s : State) (p : Payload), s.decu.st = .reading → s.decu.cnt.toNat ≤ 9 →
    exec (.decuCont p) s = .next { s with decu :=
      { s.decu with st := .reading, acc := s.decu.acc ||| shl64 (p.setWidth 64) (7 * s.decu.cnt.toNat),
                    cnt := s.decu.cnt + 1#4, taken := s.decu.taken ++ [mkByte true p] } }

/-- R122: a terminating byte, at any count from 0 to 10; the decoder makes no further read attempt.
The record `taken` is the model's (log 12). -/
def Obligations.DecuTerminator : Prop :=
  ∀ (s : State) (p : Payload), s.decu.st = .reading → s.decu.cnt.toNat ≤ 10 →
    ∃ t, exec (.decuTerm p) s = .next t ∧ t = { s with decu :=
      { s.decu with st := .done, acc := s.decu.acc ||| shl64 (p.setWidth 64) (7 * s.decu.cnt.toNat),
                    cnt := s.decu.cnt + 1#4, taken := s.decu.taken ++ [mkByte false p] } } ∧
      t.outputs.duSrcReady = false

/-- R123 with R195: the eleventh continuation byte.
The record `taken` is the model's (log 12). -/
def Obligations.DecuOverflow : Prop :=
  ∀ (s : State) (p : Payload), s.decu.st = .reading → s.decu.cnt = 10#4 →
    ∃ t, exec (.decuCont p) s = .next t ∧ t = { s with decu :=
      { s.decu with st := .failed, acc := 0#64, cnt := 11#4, kind := .overflow, cause := 0#_,
                    taken := s.decu.taken ++ [mkByte true p] } } ∧
      t.outputs.duSrcReady = false

/-- R124, R154: a clean end of input, at any count from 0 to 10: `acc` and `cnt` unchanged, no sign extension. -/
def Obligations.CleanEndOfInput : Prop :=
  (∀ s : State, s.decu.st = .reading → s.decu.cnt.toNat ≤ 10 →
    exec (.srcEof .unsigned) s = .next { s with decu := { s.decu with st := .done } }) ∧
  (∀ s : State, s.decs.st = .reading → s.decs.cnt.toNat ≤ 10 →
    exec (.srcEof .signed) s = .next { s with decs := { s.decs with st := .done } })

/-- R125, R155 with R195: a read failure, at any count from 0 to 10, by code 2 or 3: `cnt` unchanged. -/
def Obligations.ReadFailure : Prop :=
  (∀ (s : State) (k : Cause), s.decu.st = .reading → s.decu.cnt.toNat ≤ 10 →
    exec (.srcErr .unsigned k) s = .next { s with decu :=
      { s.decu with st := .failed, acc := 0#64, kind := .ioError, cause := k } } ∧
    exec (.srcErrAlias .unsigned k) s = .next { s with decu :=
      { s.decu with st := .failed, acc := 0#64, kind := .ioError, cause := k } }) ∧
  (∀ (s : State) (k : Cause), s.decs.st = .reading → s.decs.cnt.toNat ≤ 10 →
    exec (.srcErr .signed k) s = .next { s with decs :=
      { s.decs with st := .failed, acc := 0#64, kind := .ioError, cause := k } } ∧
    exec (.srcErrAlias .signed k) s = .next { s with decs :=
      { s.decs with st := .failed, acc := 0#64, kind := .ioError, cause := k } })

/-- R151: a continuation byte within the budget; no sign extension happens.
The record `taken` is the model's (log 12). -/
def Obligations.DecsContinuation : Prop :=
  ∀ (s : State) (p : Payload), s.decs.st = .reading → s.decs.cnt.toNat ≤ 9 →
    exec (.decsCont p) s = .next { s with decs :=
      { s.decs with st := .reading, acc := s.decs.acc ||| shl64 (p.setWidth 64) (7 * s.decs.cnt.toNat),
                    cnt := s.decs.cnt + 1#4, taken := s.decs.taken ++ [mkByte true p] } }

/-- R152: a terminating byte, at any count from 0 to 10, without and with sign extension.
The record `taken` is the model's (log 12). -/
def Obligations.DecsTerminator : Prop :=
  ∀ (s : State) (p : Payload), s.decs.st = .reading → s.decs.cnt.toNat ≤ 10 →
    (p.getLsbD 6 = false → exec (.decsTermPos p) s = .next { s with decs :=
      { s.decs with st := .done, acc := s.decs.acc ||| shl64 (p.setWidth 64) (7 * s.decs.cnt.toNat),
                    cnt := s.decs.cnt + 1#4, taken := s.decs.taken ++ [mkByte false p] } }) ∧
    (p.getLsbD 6 = true → exec (.decsTermNeg p) s = .next { s with decs :=
      { s.decs with st := .done,
                    acc := s.decs.acc ||| shl64 (p.setWidth 64) (7 * s.decs.cnt.toNat) |||
                      onesFrom (7 * (s.decs.cnt.toNat + 1)),
                    cnt := s.decs.cnt + 1#4, taken := s.decs.taken ++ [mkByte false p] } })

/-- R153 with R195: the eleventh continuation byte.
The record `taken` is the model's (log 12). -/
def Obligations.DecsOverflow : Prop :=
  ∀ (s : State) (p : Payload), s.decs.st = .reading → s.decs.cnt = 10#4 →
    ∃ t, exec (.decsCont p) s = .next t ∧ t = { s with decs :=
      { s.decs with st := .failed, acc := 0#64, cnt := 11#4, kind := .overflow, cause := 0#_,
                    taken := s.decs.taken ++ [mkByte true p] } } ∧
      t.outputs.dsSrcReady = false

/-- SRC.BYTE runs as the byte's class does (R53, R94, R98), in every state; in READING, at any count from 0 to 10, it
completes and consumes exactly that byte. -/
def Obligations.ByteOutcomeRunsItsClass : Prop :=
  ∀ (s : State) (c : Codec) (b : Byte),
    (∀ i, decode (.inByte c b) = .ok i → exec (.srcByte c b) s = exec i s) ∧
    ((s.dec c).st = .reading → (s.dec c).cnt.toNat ≤ 10 →
      ∃ d : DecUnit, exec (.srcByte c b) s = .next (s.setDec c d) ∧ d.taken = (s.dec c).taken ++ [b] ∧
        d.results = (s.dec c).results ∧ d.cnt.toNat = (s.dec c).cnt.toNat + 1 ∧
        (contFlag b = false → d.st = .done) ∧
        (contFlag b = true → (s.dec c).cnt.toNat ≤ 9 → d.st = .reading) ∧
        (contFlag b = true → (s.dec c).cnt.toNat = 10 → d.st = .failed ∧ d.kind = .overflow))

/-- R127, R157: an eleventh byte that terminates ends the operation OK and leaves `acc` as it is, whatever its payload
and sign flag.
The record `taken` is the model's (log 12). -/
def Obligations.EleventhTerminatorIsOk : Prop :=
  ∀ (s : State) (c : Codec) (b : Byte), (s.dec c).st = .reading → (s.dec c).cnt = 10#4 → contFlag b = false →
    exec (.srcByte c b) s = .next (s.setDec c
      { s.dec c with st := .done, cnt := 11#4, taken := (s.dec c).taken ++ [b] })

/-- R126, R156: of a tenth byte only bit 0 of the payload is kept, at bit 63, and its sign flag has no effect. -/
def Obligations.TenthByteKeepsOneBit : Prop :=
  ∀ (s : State) (c : Codec) (b : Byte), (s.dec c).st = .reading → (s.dec c).cnt = 9#4 →
    ∃ d : DecUnit, exec (.srcByte c b) s = .next (s.setDec c d) ∧
      (∀ i, i < 63 → d.acc.getLsbD i = (s.dec c).acc.getLsbD i) ∧
      d.acc.getLsbD 63 = ((s.dec c).acc.getLsbD 63 || b.getLsbD 0)

/-- R54, R31: a decoder reads exactly in READING: `src_ready` says so, and outside READING a read attempt of any kind
consumes nothing and changes nothing. -/
def Obligations.ReadsOnlyInReading : Prop :=
  (∀ s : State, (s.outputs.duSrcReady = true ↔ s.decu.st = .reading) ∧
    (s.outputs.dsSrcReady = true ↔ s.decs.st = .reading)) ∧
  (∀ (i : Instr) (s : State), isRead i = true →
    (unitOf i = .decu → s.decu.st ≠ .reading → exec i s = .next s) ∧
    (unitOf i = .decs → s.decs.st ≠ .reading → exec i s = .next s))

/-- R55: while a decoder is in READING and its source offers nothing, it keeps every register, whatever the other
wires of the edge say. -/
def Obligations.SilentSourceBlocks : Prop :=
  ∀ (c : Codec) (s t : State) (inp : Inputs) (rest : List Stimulus), (s.dec c).st = .reading →
    s.agenda = .edge inp :: rest → inp.rst = false → inp.srcValid c = false → step s = .next t → t.dec c = s.dec c

/-- R174: the result is handed over and the decoder goes to IDLE with its other registers unchanged; while the host
does not take it, the decoder keeps everything, whatever the other wires of the edge say. -/
def Obligations.ResultTransfer : Prop :=
  (∀ (s : State) (c : Codec), (s.dec c).st = .done →
    exec (.resOk c) s = .next (s.setDec c { s.dec c with st := .idle, results := (s.dec c).results ++
      [{ value := (s.dec c).acc, status := .ok, cause := (s.dec c).cause }] })) ∧
  (∀ (s : State) (c : Codec), (s.dec c).st = .failed → (s.dec c).kind = .overflow →
    exec (.resOverflow c) s = .next (s.setDec c { s.dec c with st := .idle, results := (s.dec c).results ++
      [{ value := (s.dec c).acc, status := .overflow, cause := (s.dec c).cause }] })) ∧
  (∀ (s : State) (c : Codec), (s.dec c).st = .failed → (s.dec c).kind = .ioError →
    exec (.resSrcFail c) s = .next (s.setDec c { s.dec c with st := .idle, results := (s.dec c).results ++
      [{ value := (s.dec c).acc, status := .srcFail, cause := (s.dec c).cause }] })) ∧
  (∀ (c : Codec) (s t : State) (inp : Inputs) (rest : List Stimulus), ((s.dec c).st = .done ∨ (s.dec c).st = .failed) →
    s.agenda = .edge inp :: rest → inp.rst = false → inp.resReady c = false → step s = .next t → t.dec c = s.dec c)

/-- R32: what the result port shows, by `st` and `kind`; and in a state that meets R35 the value is zero whenever the
status is not OK. The codes on the wires are 0, 1 and 2, and 3 never appears. -/
def Obligations.OfferedResult : Prop :=
  (Status.ok.code = 0#2 ∧ Status.overflow.code = 1#2 ∧ Status.srcFail.code = 2#2 ∧
    ∀ (d : DecUnit) (r : DecResult), d.offer? = some r → r.status.code ≠ 3#2) ∧
  (∀ d : DecUnit,
    (d.st = .idle ∨ d.st = .reading → d.offer? = none) ∧
    (d.st = .done → d.offer? = some { value := d.acc, status := .ok, cause := d.cause }) ∧
    (d.st = .failed → d.kind = .overflow → d.offer? = some { value := d.acc, status := .overflow, cause := d.cause }) ∧
    (d.st = .failed → d.kind = .ioError → d.offer? = some { value := d.acc, status := .srcFail, cause := d.cause })) ∧
  (∀ (s : State) (c : Codec) (r : DecResult), s.Inv → (s.dec c).offer? = some r → r.status ≠ .ok → r.value = 0#64) ∧
  (∀ s : State, s.outputs.duRes = s.decu.offer? ∧ s.outputs.dsRes = s.decs.offer?)

/-- R128, R158, first row: from IDLE, a decode command, at most ten continuation bytes and a terminating byte end with
status OK and the value of the encoding, exactly these bytes consumed. -/
def Obligations.DecodeEndsOnTerminator : Prop :=
  ∀ (c : Codec) (val : Word) (bs : List Byte) (b : Byte) (s : State) (rest : List Stimulus),
    (s.dec c).st = .idle → allCont bs → bs.length ≤ 10 → contFlag b = false →
    s.agenda = commandEdge (decOp c) val :: ((bs ++ [b]).map (byteEdge c) ++ rest) →
    ∃ d : DecUnit, runSteps (bs.length + 2) s = .next ((s.setDec c d).setAgenda rest) ∧
      d.offer? = some { value := valueOf c (bs ++ [b]), status := .ok, cause := 0#_ } ∧
      d.taken = (s.dec c).taken ++ (bs ++ [b]) ∧ d.cnt.toNat = bs.length + 1 ∧ d.results = (s.dec c).results

/-- R128, R158, second row: from IDLE, a decode command, at most ten continuation bytes and a clean end of input end
with status OK and `uval` of the bytes read. -/
def Obligations.DecodeEndsOnEndOfInput : Prop :=
  ∀ (c : Codec) (val : Word) (bs : List Byte) (x : Byte) (k : Cause) (s : State) (rest : List Stimulus),
    (s.dec c).st = .idle → allCont bs → bs.length ≤ 10 →
    s.agenda = commandEdge (decOp c) val :: (bs.map (byteEdge c) ++ answerEdge c 1#2 x k :: rest) →
    ∃ d : DecUnit, runSteps (bs.length + 2) s = .next ((s.setDec c d).setAgenda rest) ∧
      d.offer? = some { value := uval bs, status := .ok, cause := 0#_ } ∧
      d.taken = (s.dec c).taken ++ bs ∧ d.cnt.toNat = bs.length ∧ d.results = (s.dec c).results

/-- R128, R158, third and fourth row: a read error (code 2 or 3) after at most ten continuation bytes ends in SRC_FAIL
with the forwarded cause, an eleventh continuation byte in OVERFLOW, both with value 0. -/
def Obligations.DecodeEndsInFailure : Prop :=
  (∀ (c : Codec) (val : Word) (bs : List Byte) (code : BitVec 2) (x : Byte) (k : Cause) (s : State)
      (rest : List Stimulus),
    (s.dec c).st = .idle → allCont bs → bs.length ≤ 10 → code = 2#2 ∨ code = 3#2 →
    s.agenda = commandEdge (decOp c) val :: (bs.map (byteEdge c) ++ answerEdge c code x k :: rest) →
    ∃ d : DecUnit, runSteps (bs.length + 2) s = .next ((s.setDec c d).setAgenda rest) ∧
      d.offer? = some { value := 0#64, status := .srcFail, cause := k } ∧
      d.taken = (s.dec c).taken ++ bs ∧ d.cnt.toNat = bs.length ∧ d.results = (s.dec c).results) ∧
  (∀ (c : Codec) (val : Word) (bs : List Byte) (s : State) (rest : List Stimulus),
    (s.dec c).st = .idle → allCont bs → bs.length = 11 →
    s.agenda = commandEdge (decOp c) val :: (bs.map (byteEdge c) ++ rest) →
    ∃ d : DecUnit, runSteps 12 s = .next ((s.setDec c d).setAgenda rest) ∧
      d.offer? = some { value := 0#64, status := .overflow, cause := 0#_ } ∧
      d.taken = (s.dec c).taken ++ bs ∧ d.cnt.toNat = 11 ∧ d.results = (s.dec c).results)

/-- R131, R161: from IDLE, a decode operation whose source yields the bytes that the encoder emits for `v` ends with
status OK and value `v`, exactly those bytes consumed, and the host takes it. -/
def Obligations.RoundTripOnTheMachine : Prop :=
  ∀ (c : Codec) (v val : Word) (s : State) (rest : List Stimulus), (s.dec c).st = .idle →
    s.agenda = commandEdge (decOp c) val :: ((encodeValue c v).map (byteEdge c) ++ resultEdge c :: rest) →
    ∃ d : DecUnit, runSteps ((encodeValue c v).length + 2) s = .next ((s.setDec c d).setAgenda rest) ∧
      d.st = .idle ∧ d.taken = (s.dec c).taken ++ encodeValue c v ∧
      d.results = (s.dec c).results ++ [{ value := v, status := .ok, cause := 0#_ }]

/-- R130, R160, R58: once a decoder is out of READING, bytes that its source goes on offering stay in the source, however
many they are. -/
def Obligations.EarlyTermination : Prop :=
  ∀ (c : Codec) (bs : List Byte) (s : State) (rest : List Stimulus), (s.dec c).st ≠ .reading →
    s.agenda = bs.map (byteEdge c) ++ rest → runSteps bs.length s = .next (s.setAgenda rest)

/-! ### The whole machine -/

/-- R15, R183: every instruction changes only its own unit, and neither the environment's further moves nor the
free-value counter. -/
def Obligations.UnitsAreIsolated : Prop :=
  ∀ (i : Instr) (s t : State), exec i s = .next t →
    (∀ u : UnitName, u ≠ unitOf i → sameUnit u s t) ∧ t.agenda = s.agenda ∧ t.freeIdx = s.freeIdx

/-- R183, R240: at one edge each unit takes at most one step, and the order in which the steps of one edge are taken
does not matter. -/
def Obligations.EdgeOrderDoesNotMatter : Prop :=
  ∀ (s : State) (inp : Inputs),
    ((s.transfers inp).map unitOfWord).Nodup ∧
    ∀ l : List PortWord, l.Perm (s.transfers inp) → runWords l s = runWords (s.transfers inp) s

/-- R35: its items (a) to (f) are kept by every step, reset edges and every other edge included. -/
def Obligations.StepKeepsDecoderInvariant : Prop :=
  ∀ s t : State, s.Inv → step s = .next t → t.Inv

/-- R35 holds at reset. -/
def Obligations.ResetMeetsDecoderInvariant : Prop :=
  State.reset.Inv ∧ State.reset.Spells

/-- R128, R158, R196, R66: whatever steps are taken, the registers of a decoder say exactly what the bytes its operation
has consumed spell. -/
def Obligations.StepKeepsSpelling : Prop :=
  ∀ s t : State, s.Spells → step s = .next t → t.Spells

/-- R36: an acceptance writes every working register of its unit, and no rule reads a working register in IDLE, so what
an operation leaves behind cannot influence a later one: states that differ only in working registers of IDLE units step
alike, for ever. -/
def Obligations.IdleRegistersDoNotMatter : Prop :=
  (∀ (e f : EncUnit) (val : Word), e.st = .idle → e.Agrees f → e.accept val = f.accept val) ∧
  (∀ d f : DecUnit, d.st = .idle → d.Agrees f → d.accept = f.accept) ∧
  (∀ (n : Nat) (s t : State), s.Agrees t → answersAgree (runSteps n s) (runSteps n t))

/-- R92, R182 ("the block never refuses"): no instruction is refused, a step refuses only a result status that is never
driven (log 11), and an instruction faults only as a read attempt in READING with `cnt` above 10 (log 10), which R35
rules out. -/
def Obligations.StopsAreOnlyTheModelsOwn : Prop :=
  (∀ (i : Instr) (s : State) (r : Refusal), exec i s ≠ .refused r) ∧
  (∀ (i : Instr) (s : State), exec i s = .fault .countOutOfRange ↔
    isRead i = true ∧ ((unitOf i = .decu ∧ s.decu.st = .reading ∧ 10 < s.decu.cnt.toNat) ∨
      (unitOf i = .decs ∧ s.decs.st = .reading ∧ 10 < s.decs.cnt.toNat))) ∧
  (∀ (s : State) (r : Refusal), step s = .refused r →
    ∃ c rest, s.agenda = .transfer (.status c 3#2) :: rest ∧ r = .undecodable .statusNeverDriven) ∧
  (∀ (s : State) (f : Fault), s.Inv → step s ≠ .fault f)

/-- R51, R56, R60, R62, R240: a step adds at most one byte to each stream and at most one result to each port, and takes
nothing back. -/
def Obligations.StreamsOnlyGrow : Prop :=
  ∀ s t : State, step s = .next t →
    (∀ c, ∃ l : List Byte, l.length ≤ 1 ∧ (t.enc c).out = (s.enc c).out ++ l) ∧
    (∀ c, ∃ l : List Byte, l.length ≤ 1 ∧ (t.dec c).taken = (s.dec c).taken ++ l) ∧
    (∀ c, ∃ l : List DecResult, l.length ≤ 1 ∧ (t.dec c).results = (s.dec c).results ++ l)

/-- R220: an edge with `rst = 1` puts all four units in IDLE, and no command is accepted, no byte emitted or consumed,
no result handed over, whatever the other wires say; nothing is claimed of the other registers, which the model makes
free values (log 3). Its last sentence:
without reset a unit comes to IDLE only by finishing its operation, an encoder by handing over a byte with bit 7 clear,
a decoder by handing over its result. -/
def Obligations.ResetEdge : Prop :=
  (∀ (s : State) (inp : Inputs) (rest : List Stimulus), s.agenda = .edge inp :: rest → inp.rst = true →
    ∃ t, step s = .next t ∧ t.agenda = rest ∧
      t.encu.st = .idle ∧ t.encs.st = .idle ∧ t.decu.st = .idle ∧ t.decs.st = .idle ∧
      t.encu.out = s.encu.out ∧ t.encs.out = s.encs.out ∧
      t.decu.taken = s.decu.taken ∧ t.decs.taken = s.decs.taken ∧
      t.decu.results = s.decu.results ∧ t.decs.results = s.decs.results) ∧
  (∀ (s t : State), (∀ inp rest, s.agenda = .edge inp :: rest → inp.rst = false) → step s = .next t →
    (∀ c, (s.enc c).st ≠ .idle → (t.enc c).st = .idle →
      ∃ b, contFlag b = false ∧ (t.enc c).out = (s.enc c).out ++ [b]) ∧
    (∀ c, (s.dec c).st ≠ .idle → (t.dec c).st = .idle →
      ∃ r, (s.dec c).offer? = some r ∧ (t.dec c).results = (s.dec c).results ++ [r]))

/-- R33 for the registers it gives: all units in IDLE, hence `cmd_ready = 0b1111`, every `valid` and both `src_ready`
outputs 0. -/
def Obligations.ResetState : Prop :=
  State.reset.encu.st = .idle ∧ State.reset.encs.st = .idle ∧ State.reset.decu.st = .idle ∧
  State.reset.decs.st = .idle ∧
  State.reset.outputs = { cmdReady := 0b1111#4, eu := none, es := none, duSrcReady := false, dsSrcReady := false,
                          duRes := none, dsRes := none }

/-- R29, and R35 (g), which follows from R29 to R32: each bit of `cmd_ready` says that its own unit is in IDLE, and each unit drives exactly one of its
ready and valid outputs. -/
def Obligations.ExactlyOneHandshakeOpen : Prop :=
  ∀ s : State,
    (s.cmdReady.getLsbD 0 = true ↔ s.encu.st = .idle) ∧ (s.cmdReady.getLsbD 1 = true ↔ s.decu.st = .idle) ∧
    (s.cmdReady.getLsbD 2 = true ↔ s.encs.st = .idle) ∧ (s.cmdReady.getLsbD 3 = true ↔ s.decs.st = .idle) ∧
    (∀ c, ((s.enc c).ready = true ∧ (s.enc c).offer? c = none) ∨
      ((s.enc c).ready = false ∧ (s.enc c).offer? c ≠ none)) ∧
    (∀ c, ((s.dec c).ready = true ∧ (s.dec c).srcReady = false ∧ (s.dec c).offer? = none) ∨
      ((s.dec c).ready = false ∧ (s.dec c).srcReady = true ∧ (s.dec c).offer? = none) ∨
      ((s.dec c).ready = false ∧ (s.dec c).srcReady = false ∧ (s.dec c).offer? ≠ none))

/-- R11: the shifts and the mask as arithmetic on numbers. -/
def Obligations.ShiftsAreArithmetic : Prop :=
  ∀ (v : Word) (n : Nat),
    (lsr64 v n).toNat = v.toNat / 2 ^ n ∧ (asr64 v n).toInt = v.toInt / 2 ^ n ∧
    (shl64 v n).toNat = v.toNat * 2 ^ n % 2 ^ 64 ∧ (64 ≤ n → shl64 v n = 0#64) ∧
    (onesFrom n).toNat = if n < 64 then 2 ^ 64 - 2 ^ n else 0
end

