-- ==== Sys2Proof/Laws/State.lean ====
section
/-! SUPPORT. The small lemmas of the state: one per field per update, so that no proof unfolds a record update. -/

namespace Sys2Proof.Machine

@[simp] theorem State.enc_unsigned (s : State) : s.enc .unsigned = s.encu := rfl
@[simp] theorem State.enc_signed (s : State) : s.enc .signed = s.encs := rfl
@[simp] theorem State.dec_unsigned (s : State) : s.dec .unsigned = s.decu := rfl
@[simp] theorem State.dec_signed (s : State) : s.dec .signed = s.decs := rfl

@[simp] theorem State.setEnc_unsigned_encu (s : State) (e : EncUnit) : (s.setEnc .unsigned e).encu = e := rfl
@[simp] theorem State.setEnc_unsigned_encs (s : State) (e : EncUnit) : (s.setEnc .unsigned e).encs = s.encs := rfl
@[simp] theorem State.setEnc_signed_encs (s : State) (e : EncUnit) : (s.setEnc .signed e).encs = e := rfl
@[simp] theorem State.setEnc_signed_encu (s : State) (e : EncUnit) : (s.setEnc .signed e).encu = s.encu := rfl

@[simp] theorem State.setEnc_decu (s : State) (c : Codec) (e : EncUnit) : (s.setEnc c e).decu = s.decu := by
  cases c <;> rfl
@[simp] theorem State.setEnc_decs (s : State) (c : Codec) (e : EncUnit) : (s.setEnc c e).decs = s.decs := by
  cases c <;> rfl
@[simp] theorem State.setEnc_agenda (s : State) (c : Codec) (e : EncUnit) : (s.setEnc c e).agenda = s.agenda := by
  cases c <;> rfl
@[simp] theorem State.setEnc_freeIdx (s : State) (c : Codec) (e : EncUnit) :
    (s.setEnc c e).freeIdx = s.freeIdx := by
  cases c <;> rfl

@[simp] theorem State.setDec_unsigned_decu (s : State) (d : DecUnit) : (s.setDec .unsigned d).decu = d := rfl
@[simp] theorem State.setDec_unsigned_decs (s : State) (d : DecUnit) : (s.setDec .unsigned d).decs = s.decs := rfl
@[simp] theorem State.setDec_signed_decs (s : State) (d : DecUnit) : (s.setDec .signed d).decs = d := rfl
@[simp] theorem State.setDec_signed_decu (s : State) (d : DecUnit) : (s.setDec .signed d).decu = s.decu := rfl

@[simp] theorem State.setDec_encu (s : State) (c : Codec) (d : DecUnit) : (s.setDec c d).encu = s.encu := by
  cases c <;> rfl
@[simp] theorem State.setDec_encs (s : State) (c : Codec) (d : DecUnit) : (s.setDec c d).encs = s.encs := by
  cases c <;> rfl
@[simp] theorem State.setDec_agenda (s : State) (c : Codec) (d : DecUnit) : (s.setDec c d).agenda = s.agenda := by
  cases c <;> rfl
@[simp] theorem State.setDec_freeIdx (s : State) (c : Codec) (d : DecUnit) :
    (s.setDec c d).freeIdx = s.freeIdx := by
  cases c <;> rfl

/-- What was written is read back, and an encoder's own value changes nothing. -/
@[simp] theorem State.enc_setEnc (s : State) (c : Codec) (e : EncUnit) : (s.setEnc c e).enc c = e := by
  cases c <;> rfl
@[simp] theorem State.setEnc_enc (s : State) (c : Codec) : s.setEnc c (s.enc c) = s := by
  cases c <;> rfl
@[simp] theorem State.setEnc_setEnc (s : State) (c : Codec) (e f : EncUnit) :
    (s.setEnc c e).setEnc c f = s.setEnc c f := by
  cases c <;> rfl

/-- What was written is read back, and a decoder's own value changes nothing. -/
@[simp] theorem State.dec_setDec (s : State) (c : Codec) (d : DecUnit) : (s.setDec c d).dec c = d := by
  cases c <;> rfl
@[simp] theorem State.setDec_dec (s : State) (c : Codec) : s.setDec c (s.dec c) = s := by
  cases c <;> rfl
@[simp] theorem State.setDec_setDec (s : State) (c : Codec) (d f : DecUnit) :
    (s.setDec c d).setDec c f = s.setDec c f := by
  cases c <;> rfl

/-- Encoders and decoders are apart. -/
@[simp] theorem State.dec_setEnc (s : State) (c c' : Codec) (e : EncUnit) : (s.setEnc c e).dec c' = s.dec c' := by
  cases c <;> cases c' <;> rfl
@[simp] theorem State.enc_setDec (s : State) (c c' : Codec) (d : DecUnit) : (s.setDec c d).enc c' = s.enc c' := by
  cases c <;> cases c' <;> rfl

@[simp] theorem State.setAgenda_encu (s : State) (a : List Stimulus) : (s.setAgenda a).encu = s.encu := rfl
@[simp] theorem State.setAgenda_encs (s : State) (a : List Stimulus) : (s.setAgenda a).encs = s.encs := rfl
@[simp] theorem State.setAgenda_decu (s : State) (a : List Stimulus) : (s.setAgenda a).decu = s.decu := rfl
@[simp] theorem State.setAgenda_decs (s : State) (a : List Stimulus) : (s.setAgenda a).decs = s.decs := rfl
@[simp] theorem State.setAgenda_agenda (s : State) (a : List Stimulus) : (s.setAgenda a).agenda = a := rfl
@[simp] theorem State.setAgenda_freeIdx (s : State) (a : List Stimulus) : (s.setAgenda a).freeIdx = s.freeIdx := rfl
@[simp] theorem State.setAgenda_enc (s : State) (a : List Stimulus) (c : Codec) :
    (s.setAgenda a).enc c = s.enc c := by
  cases c <;> rfl
@[simp] theorem State.setAgenda_dec (s : State) (a : List Stimulus) (c : Codec) :
    (s.setAgenda a).dec c = s.dec c := by
  cases c <;> rfl
@[simp] theorem State.setAgenda_setAgenda (s : State) (a b : List Stimulus) :
    (s.setAgenda a).setAgenda b = s.setAgenda b := rfl

/-- Reset states, field by field (10_state.md R33). -/
@[simp] theorem State.reset_encu : State.reset.encu = EncUnit.atReset := rfl
@[simp] theorem State.reset_encs : State.reset.encs = EncUnit.atReset := rfl
@[simp] theorem State.reset_decu : State.reset.decu = DecUnit.atReset := rfl
@[simp] theorem State.reset_decs : State.reset.decs = DecUnit.atReset := rfl
@[simp] theorem State.reset_agenda : State.reset.agenda = [] := rfl

/-- A reset edge touches the streams of no unit (70_reset_and_hazards.md R221). -/
@[simp] theorem State.resetUnits_encu_out (s : State) : s.resetUnits.encu.out = s.encu.out := rfl
@[simp] theorem State.resetUnits_encs_out (s : State) : s.resetUnits.encs.out = s.encs.out := rfl
@[simp] theorem State.resetUnits_decu_taken (s : State) : s.resetUnits.decu.taken = s.decu.taken := rfl
@[simp] theorem State.resetUnits_decs_taken (s : State) : s.resetUnits.decs.taken = s.decs.taken := rfl
@[simp] theorem State.resetUnits_decu_results (s : State) : s.resetUnits.decu.results = s.decu.results := rfl
@[simp] theorem State.resetUnits_decs_results (s : State) : s.resetUnits.decs.results = s.decs.results := rfl
@[simp] theorem State.resetUnits_encu_st (s : State) : s.resetUnits.encu.st = .idle := rfl
@[simp] theorem State.resetUnits_encs_st (s : State) : s.resetUnits.encs.st = .idle := rfl
@[simp] theorem State.resetUnits_decu_st (s : State) : s.resetUnits.decu.st = .idle := rfl
@[simp] theorem State.resetUnits_decs_st (s : State) : s.resetUnits.decs.st = .idle := rfl
@[simp] theorem State.resetUnits_agenda (s : State) : s.resetUnits.agenda = s.agenda := rfl

end Sys2Proof.Machine
end

