-- ==== Sys2Proof/Laws/Operands.lean ====
section
/-! SUPPORT. What the byte fields and the arithmetic of Operands.lean do, said once. -/

namespace Sys2Proof.Machine

open Sys2Proof

@[simp] theorem contFlag_mkByte (k : Bool) (p : Payload) : contFlag (mkByte k p) = k := by
  simp only [contFlag, mkByte, BitVec.getLsbD_append]
  simp

@[simp] theorem payload_mkByte (k : Bool) (p : Payload) : payload (mkByte k p) = p := by
  apply BitVec.eq_of_getLsbD_eq
  intro i hi
  simp only [payload, mkByte, BitVec.getLsbD_extractLsb', BitVec.getLsbD_append]
  simp [hi]

@[simp] theorem signFlag_mkByte (k : Bool) (p : Payload) : signFlag (mkByte k p) = p.getLsbD 6 := by
  simp only [signFlag, mkByte, BitVec.getLsbD_append]
  simp

/-- A byte is its two fields (30_encoding.md R80). -/
theorem mkByte_fields (b : Byte) : mkByte (contFlag b) (payload b) = b := by
  apply BitVec.eq_of_getLsbD_eq
  intro i hi
  simp only [mkByte, contFlag, payload, BitVec.getLsbD_append]
  by_cases h : i < 7
  · simp [h]
  · have : i = 7 := by omega
    subst this
    simp

/-- A byte with the fields `k` and `p` is `mkByte k p`. -/
theorem eq_mkByte_of_fields {b : Byte} {k : Bool} {p : Payload} (hk : contFlag b = k) (hp : payload b = p) :
    b = mkByte k p := by
  rw [← mkByte_fields b, hk, hp]

@[simp] theorem contFlag_nextByte (c : Codec) (r : Word) : contFlag (nextByte c r) = moreFollows c r := by
  simp [nextByte]

@[simp] theorem payload_nextByte (c : Codec) (r : Word) : payload (nextByte c r) = lowGroup r := by
  simp [nextByte]

/-- The presented byte is `{k, p}` exactly when its two fields are (40_unsigned_codec.md R111). -/
theorem nextByte_eq_iff (c : Codec) (r : Word) (k : Bool) (p : Payload) :
    nextByte c r = mkByte k p ↔ moreFollows c r = k ∧ lowGroup r = p := by
  constructor
  · intro h
    have h1 := congrArg contFlag h
    have h2 := congrArg payload h
    rw [contFlag_nextByte, contFlag_mkByte] at h1
    rw [payload_nextByte, payload_mkByte] at h2
    exact ⟨h1, h2⟩
  · rintro ⟨rfl, rfl⟩
    rfl

/-- `shl64` drops everything at position 64 and above (00_scope.md R11). -/
theorem shl64_eq_zero {v : Word} {n : Nat} (h : 64 ≤ n) : shl64 v n = 0#64 := by
  simp only [shl64]
  exact BitVec.shiftLeft_eq_zero h

theorem onesFrom_eq_zero {n : Nat} (h : 64 ≤ n) : onesFrom n = 0#64 := shl64_eq_zero h

/-- Groups number 10 and above contribute nothing (30_encoding.md R82). -/
theorem groupAt_eq_zero {p : Payload} {i : Nat} (h : maxW ≤ i) : groupAt p i = 0#64 := by
  apply shl64_eq_zero
  simp only [groupW, maxW] at *
  omega

theorem uvalFrom_append (i : Nat) (bs cs : List Byte) :
    uvalFrom i (bs ++ cs) = uvalFrom i bs ||| uvalFrom (i + bs.length) cs := by
  induction bs generalizing i with
  | nil => simp [uvalFrom]
  | cons b bs ih =>
    rw [List.cons_append, uvalFrom, uvalFrom, ih, BitVec.or_assoc, List.length_cons]
    congr 3
    omega

/-- One more byte joins a value as the next group (30_encoding.md R82). -/
theorem uval_concat (bs : List Byte) (b : Byte) :
    uval (bs ++ [b]) = uval bs ||| groupAt (payload b) bs.length := by
  simp [uval, uvalFrom_append, uvalFrom]

end Sys2Proof.Machine
end

