-- ==== Sys2Proof/Laws/Ops.lean ====
section
/-! SUPPORT. For each shared operation, everything it can do, said once. -/

namespace Sys2Proof.Machine

open Sys2Proof

/-- Acceptance by an encoder: taken in IDLE, left alone in EMIT (42_command_and_result.md R171, R173). -/
theorem EncUnit.accept_cases (val : Word) (e : EncUnit) :
    (e.st = .idle ∧ e.accept val = { e with st := .emit, rem := val }) ∨
    (e.st = .emit ∧ e.accept val = e) := by
  cases h : e.st <;> simp [EncUnit.accept, h]

/-- Acceptance by a decoder: taken in IDLE, left alone elsewhere (42_command_and_result.md R172, R173). -/
theorem DecUnit.accept_cases (d : DecUnit) :
    (d.st = .idle ∧
      d.accept = { d with st := .reading, acc := 0#64, cnt := 0#4, kind := .overflow, cause := 0#_ }) ∨
    (d.st ≠ .idle ∧ d.accept = d) := by
  cases h : d.st <;> simp [DecUnit.accept, h]

/-- The hand-over of a byte: the presented byte goes out, any other leaves the unit as it is (20_memory.md R56). -/
theorem EncUnit.emitByte_cases (c : Codec) (b : Byte) (e : EncUnit) :
    (e.st = .emit ∧ nextByte c e.rem = b ∧
      e.emitByte c b = { st := if contFlag b then .emit else .idle, rem := nextRem c e.rem, out := e.out ++ [b] }) ∨
    ((e.st = .idle ∨ nextByte c e.rem ≠ b) ∧ e.emitByte c b = e) := by
  cases h : e.st
  · right; simp [EncUnit.emitByte, h]
  · by_cases hb : nextByte c e.rem = b <;> simp [EncUnit.emitByte, h, hb]

/-- The result transfer: an offered result of this status is taken, else nothing changes
(42_command_and_result.md R174). -/
theorem DecUnit.handOver_cases (status : Status) (d : DecUnit) :
    (∃ r, d.offer? = some r ∧ r.status = status ∧
      d.handOver status = { d with st := .idle, results := d.results ++ [r] }) ∨
    ((∀ r, d.offer? = some r → r.status ≠ status) ∧ d.handOver status = d) := by
  cases h : d.offer? with
  | none => right; simp [DecUnit.handOver, h]
  | some r => by_cases hs : r.status = status <;> simp [DecUnit.handOver, h, hs]

/-- A read attempt: the outcome's rule in READING with `cnt` in range, nothing outside READING, and the model's own stop
beyond the rules' range (20_memory.md R54; log 10). -/
theorem DecUnit.attempt_cases (f : DecUnit → DecUnit) (d : DecUnit) :
    (d.st = .reading ∧ d.cnt.toNat ≤ 10 ∧ d.attempt f = .next (f d)) ∨
    (d.st = .reading ∧ 10 < d.cnt.toNat ∧ d.attempt f = .fault .countOutOfRange) ∨
    (d.st ≠ .reading ∧ d.attempt f = .next d) := by
  cases h : d.st <;> simp only [DecUnit.attempt, h]
  · simp
  · by_cases hc : d.cnt.toNat ≤ 10
    · left; simp [hc]
    · right; left; simp only [maxW, hc, if_false]; simp; omega
  · simp
  · simp

/-- A read attempt of one decoder, as a step of the machine. -/
theorem State.attempt_cases (s : State) (c : Codec) (f : DecUnit → DecUnit) :
    ((s.dec c).st = .reading ∧ (s.dec c).cnt.toNat ≤ 10 ∧ s.attempt c f = .next (s.setDec c (f (s.dec c)))) ∨
    ((s.dec c).st = .reading ∧ 10 < (s.dec c).cnt.toNat ∧ s.attempt c f = .fault .countOutOfRange) ∨
    ((s.dec c).st ≠ .reading ∧ s.attempt c f = .next s) := by
  rcases DecUnit.attempt_cases f (s.dec c) with ⟨h1, h2, h3⟩ | ⟨h1, h2, h3⟩ | ⟨h1, h3⟩
  · exact .inl ⟨h1, h2, by simp [State.attempt, h3]⟩
  · exact .inr (.inl ⟨h1, h2, by simp [State.attempt, h3]⟩)
  · exact .inr (.inr ⟨h1, by simp [State.attempt, h3]⟩)

theorem State.attempt_reading {s : State} {c : Codec} (f : DecUnit → DecUnit) (h : (s.dec c).st = .reading)
    (hc : (s.dec c).cnt.toNat ≤ 10) : s.attempt c f = .next (s.setDec c (f (s.dec c))) := by
  rcases State.attempt_cases s c f with ⟨_, _, h3⟩ | ⟨_, h2, _⟩ | ⟨h1, _⟩
  · exact h3
  · omega
  · exact absurd h h1

theorem State.attempt_not_reading {s : State} {c : Codec} (f : DecUnit → DecUnit) (h : (s.dec c).st ≠ .reading) :
    s.attempt c f = .next s := by
  rcases State.attempt_cases s c f with ⟨h1, _⟩ | ⟨h1, _⟩ | ⟨_, h3⟩
  · exact absurd h1 h
  · exact absurd h1 h
  · exact h3

/-- The count after a byte, which never wraps (42_command_and_result.md R181). -/
theorem cnt_succ_toNat {n : BitVec 4} (h : n.toNat ≤ 10) : (n + 1#4).toNat = n.toNat + 1 := by
  simp only [BitVec.toNat_add, BitVec.toNat_ofNat]
  omega

/-- A continuation byte: joins the value within the budget, is Overflow as the eleventh byte
(40_unsigned_codec.md R121, R123; 41_signed_codec.md R151, R153). -/
theorem DecUnit.readCont_cases (p : Payload) (d : DecUnit) :
    (d.cnt.toNat ≤ 9 ∧ d.readCont p =
      { d with acc := d.gather p, cnt := d.cnt + 1#4, taken := d.taken ++ [mkByte true p] }) ∨
    (10 ≤ d.cnt.toNat ∧ d.readCont p =
      { d with acc := 0#64, kind := .overflow, cause := 0#_, st := .failed, cnt := d.cnt + 1#4,
               taken := d.taken ++ [mkByte true p] }) := by
  by_cases h : d.cnt.toNat < 10
  · left; exact ⟨by omega, by simp [DecUnit.readCont, h, DecUnit.consume]⟩
  · right; exact ⟨by omega, by simp [DecUnit.readCont, h, DecUnit.consume, DecUnit.raiseOverflow, DecUnit.fail]⟩

/-- A byte by its class (30_encoding.md R98). -/
theorem DecUnit.readByte_cases (c : Codec) (b : Byte) (d : DecUnit) :
    (contFlag b = true ∧ d.readByte c b = d.readCont (payload b)) ∨
    (contFlag b = false ∧ (c = .unsigned ∨ signFlag b = false) ∧ d.readByte c b = d.readTerm (payload b)) ∨
    (contFlag b = false ∧ c = .signed ∧ signFlag b = true ∧ d.readByte c b = d.readTermSigned (payload b)) := by
  cases c <;> cases hb : contFlag b <;> cases hs : signFlag b <;> simp [DecUnit.readByte, hb, hs]

/-- The offer of a decoder, by `st` and `kind` (10_state.md R32). -/
theorem DecUnit.offer?_cases (d : DecUnit) :
    ((d.st = .idle ∨ d.st = .reading) ∧ d.offer? = none) ∨
    (d.st = .done ∧ d.offer? = some ⟨d.acc, .ok, d.cause⟩) ∨
    (d.st = .failed ∧ d.kind = .overflow ∧ d.offer? = some ⟨d.acc, .overflow, d.cause⟩) ∨
    (d.st = .failed ∧ d.kind = .ioError ∧ d.offer? = some ⟨d.acc, .srcFail, d.cause⟩) := by
  cases h : d.st <;> cases hk : d.kind <;> simp [DecUnit.offer?, DecUnit.status?, h, hk]

end Sys2Proof.Machine
end

