-- ==== Sys2Proof/Laws/Edges.lean ====
section
/-! SUPPORT. What an edge transfers, and how steps and runs of transfers unfold. -/

namespace Sys2Proof.Machine

open Sys2Proof

theorem runWords_one (w : PortWord) (s : State) : runWords [w] s = runWord w s := by
  simp only [runWords]
  cases runWord w s <;> rfl

theorem runWords_append (l m : List PortWord) (s : State) :
    runWords (l ++ m) s =
      match runWords l s with
      | .next t => runWords m t
      | .fault r => .fault r
      | .refused r => .refused r := by
  induction l generalizing s with
  | nil => rfl
  | cons w l ih =>
    simp only [List.cons_append, runWords]
    cases runWord w s <;> simp [ih]

/-- One more step of a run. -/
theorem runSteps_next {n : Nat} {s t : State} (h : step s = .next t) : runSteps (n + 1) s = runSteps n t := by
  simp only [runSteps, h]

/-- The transfers of an edge do not depend on what the environment does later. -/
theorem transfers_setAgenda (s : State) (a : List Stimulus) (inp : Inputs) :
    (s.setAgenda a).transfers inp = s.transfers inp := rfl

/-- A step at an edge without reset runs the transfers of the edge (log 9). -/
theorem step_edge {s : State} {inp : Inputs} {rest : List Stimulus} (h : s.agenda = .edge inp :: rest)
    (hr : inp.rst = false) : step s = runWords (s.transfers inp) (s.setAgenda rest) := by
  simp [step, h, runStimulus, clockEdge, hr, transfers_setAgenda]

/-- An instruction belongs to the unit of the port whose word it is. -/
theorem unitOf_decode {w : PortWord} {i : Instr} (h : decode w = .ok i) : unitOf i = unitOfWord w := by
  cases w with
  | command w => cases h; rfl
  | inByte c b =>
    simp only [decode, decodeInByte, Except.ok.injEq] at h
    subst h
    simp only [unitOfWord]
    split <;> rfl
  | outByte c b =>
    simp only [decode, decodeOutByte, Except.ok.injEq] at h
    subst h
    simp only [unitOfWord]
    split <;> rfl
  | outcome c k b x =>
    simp only [decode, decodeOutcome, Except.ok.injEq] at h
    split at h <;> subst h <;> rfl
  | status c k =>
    simp only [decode, decodeStatus] at h
    split at h <;> cases h <;> rfl

/-- A consumer that is not ready takes nothing (20_memory.md R56). -/
theorem outTransfer_eq_nil {s : State} {inp : Inputs} {c : Codec} (h : inp.outReady c = false) :
    State.transfers.outTransfer s inp c = [] := by
  unfold State.transfers.outTransfer
  cases (s.enc c).offer? c <;> simp [h]

/-- A source that offers nothing is not read (20_memory.md R55). -/
theorem srcTransfer_eq_nil {s : State} {inp : Inputs} {c : Codec} (h : inp.srcValid c = false) :
    State.transfers.srcTransfer s inp c = [] := by
  unfold State.transfers.srcTransfer
  simp [h]

/-- A host that is not ready takes no result (42_command_and_result.md R174). -/
theorem resTransfer_eq_nil {s : State} {inp : Inputs} {c : Codec} (h : inp.resReady c = false) :
    State.transfers.resTransfer s inp c = [] := by
  unfold State.transfers.resTransfer
  cases (s.dec c).offer? <;> simp [h]

/-- What an output port transfers (20_memory.md R56). -/
theorem mem_outTransfer (s : State) (inp : Inputs) (c : Codec) (w : PortWord) :
    w ∈ State.transfers.outTransfer s inp c ↔
      inp.outReady c = true ∧ (s.enc c).st = .emit ∧ w = .outByte c (nextByte c (s.enc c).rem) := by
  unfold State.transfers.outTransfer
  cases h : (s.enc c).st <;> simp [EncUnit.offer?, h]

/-- What a source port transfers (20_memory.md R54). -/
theorem mem_srcTransfer (s : State) (inp : Inputs) (c : Codec) (w : PortWord) :
    w ∈ State.transfers.srcTransfer s inp c ↔
      inp.srcValid c = true ∧ (s.dec c).st = .reading ∧ w = inp.srcWord c := by
  unfold State.transfers.srcTransfer
  simp only [DecUnit.srcReady, List.mem_ite_nil_right, Bool.and_eq_true, beq_iff_eq, List.mem_singleton]
  tauto

/-- What a result port transfers (42_command_and_result.md R174). -/
theorem mem_resTransfer (s : State) (inp : Inputs) (c : Codec) (w : PortWord) :
    w ∈ State.transfers.resTransfer s inp c ↔
      inp.resReady c = true ∧ ∃ r, (s.dec c).offer? = some r ∧ w = .status c r.status.code := by
  unfold State.transfers.resTransfer
  cases (s.dec c).offer? <;> simp

/-- What the edge of one answering source transfers. -/
theorem answerEdge_transfers (s : State) (c : Codec) (kind : BitVec 2) (byte : Byte) (cause : Cause) :
    ∃ inp, answerEdge c kind byte cause = .edge inp ∧ inp.rst = false ∧
      s.transfers inp = if (s.dec c).srcReady then [.outcome c kind byte cause] else [] := by
  cases c
  · refine ⟨_, rfl, rfl, ?_⟩
    unfold State.transfers
    rw [outTransfer_eq_nil (c := .unsigned) rfl, outTransfer_eq_nil (c := .signed) rfl,
      srcTransfer_eq_nil (c := .signed) rfl, resTransfer_eq_nil (c := .unsigned) rfl,
      resTransfer_eq_nil (c := .signed) rfl]
    simp [State.transfers.srcTransfer, Inputs.srcValid, Inputs.srcWord, Inputs.quiet]
    rfl
  · refine ⟨_, rfl, rfl, ?_⟩
    unfold State.transfers
    rw [outTransfer_eq_nil (c := .unsigned) rfl, outTransfer_eq_nil (c := .signed) rfl,
      srcTransfer_eq_nil (c := .unsigned) rfl, resTransfer_eq_nil (c := .unsigned) rfl,
      resTransfer_eq_nil (c := .signed) rfl]
    simp [State.transfers.srcTransfer, Inputs.srcValid, Inputs.srcWord, Inputs.quiet]
    rfl

/-- What the edge of one ready consumer transfers. -/
theorem takeEdge_transfers (s : State) (c : Codec) :
    ∃ inp, takeEdge c = .edge inp ∧ inp.rst = false ∧
      s.transfers inp =
        match (s.enc c).st with
        | .idle => []
        | .emit => [.outByte c (nextByte c (s.enc c).rem)] := by
  cases c
  · refine ⟨_, rfl, rfl, ?_⟩
    unfold State.transfers
    rw [outTransfer_eq_nil (c := .signed) rfl, srcTransfer_eq_nil (c := .unsigned) rfl,
      srcTransfer_eq_nil (c := .signed) rfl, resTransfer_eq_nil (c := .unsigned) rfl,
      resTransfer_eq_nil (c := .signed) rfl]
    cases h : s.encu.st <;> simp [State.transfers.outTransfer, Inputs.outReady, EncUnit.offer?, Inputs.quiet, h]
  · refine ⟨_, rfl, rfl, ?_⟩
    unfold State.transfers
    rw [outTransfer_eq_nil (c := .unsigned) rfl, srcTransfer_eq_nil (c := .unsigned) rfl,
      srcTransfer_eq_nil (c := .signed) rfl, resTransfer_eq_nil (c := .unsigned) rfl,
      resTransfer_eq_nil (c := .signed) rfl]
    cases h : s.encs.st <;> simp [State.transfers.outTransfer, Inputs.outReady, EncUnit.offer?, Inputs.quiet, h]

/-- What the edge of a host ready for one result transfers. -/
theorem resultEdge_transfers (s : State) (c : Codec) :
    ∃ inp, resultEdge c = .edge inp ∧ inp.rst = false ∧
      s.transfers inp =
        match (s.dec c).offer? with
        | none => []
        | some r => [.status c r.status.code] := by
  cases c
  · refine ⟨_, rfl, rfl, ?_⟩
    unfold State.transfers
    rw [outTransfer_eq_nil (c := .unsigned) rfl, outTransfer_eq_nil (c := .signed) rfl,
      srcTransfer_eq_nil (c := .unsigned) rfl, srcTransfer_eq_nil (c := .signed) rfl,
      resTransfer_eq_nil (c := .signed) rfl]
    cases h : s.decu.offer? <;> simp [State.transfers.resTransfer, Inputs.resReady, Inputs.quiet, h]
  · refine ⟨_, rfl, rfl, ?_⟩
    unfold State.transfers
    rw [outTransfer_eq_nil (c := .unsigned) rfl, outTransfer_eq_nil (c := .signed) rfl,
      srcTransfer_eq_nil (c := .unsigned) rfl, srcTransfer_eq_nil (c := .signed) rfl,
      resTransfer_eq_nil (c := .unsigned) rfl]
    cases h : s.decs.offer? <;> simp [State.transfers.resTransfer, Inputs.resReady, Inputs.quiet, h]

/-- What the edge of one offered command transfers. -/
theorem commandEdge_transfers (s : State) (op : BitVec 2) (val : Word) :
    ∃ inp, commandEdge op val = .edge inp ∧ inp.rst = false ∧
      s.transfers inp = if s.opReady op then [.command (commandWord op val)] else [] := by
  refine ⟨_, rfl, rfl, ?_⟩
  unfold State.transfers
  rw [outTransfer_eq_nil (c := .unsigned) rfl, outTransfer_eq_nil (c := .signed) rfl,
    srcTransfer_eq_nil (c := .unsigned) rfl, srcTransfer_eq_nil (c := .signed) rfl,
    resTransfer_eq_nil (c := .unsigned) rfl, resTransfer_eq_nil (c := .signed) rfl]
  simp

end Sys2Proof.Machine
end

