-- ==== Sys2Proof/Laws/PerInstr.lean ====
section
/-! SUPPORT. A fact of every instruction as syntax, one lemma per constructor: its encoding is a word of the port of its
own unit (30_encoding.md R91; 10_state.md R28). -/

namespace Sys2Proof.Laws.EncodesOnOwnPort

open Sys2Proof Sys2Proof.Machine

/-- The encoding of `i` belongs to the unit that `i` is a step of. -/
def Statement (i : Instr) : Prop := unitOfWord (encode i) = unitOf i

/-- A command word belongs to the unit of its operation code, whatever its operand is. -/
theorem of_command (op : BitVec 2) (val : Word) :
    unitOfWord (.command (commandWord op val)) =
      match op.getLsbD 1, op.getLsbD 0 with
      | false, false => .encu
      | false, true => .decu
      | true, false => .encs
      | true, true => .decs := by
  have h1 : (commandWord op val).getLsbD 65 = op.getLsbD 1 := by
    simp only [commandWord, BitVec.getLsbD_append]
    simp
  have h0 : (commandWord op val).getLsbD 64 = op.getLsbD 0 := by
    simp only [commandWord, BitVec.getLsbD_append]
    simp
  simp only [unitOfWord, decodeCommand, h1, h0]
  cases op.getLsbD 1 <;> cases op.getLsbD 0 <;> rfl

theorem encu (val : Word) : Statement (.encu val) := of_command 0#2 val
theorem decu (val : Word) : Statement (.decu val) := of_command 1#2 val
theorem encs (val : Word) : Statement (.encs val) := of_command 2#2 val
theorem decs (val : Word) : Statement (.decs val) := of_command 3#2 val
theorem decuCont (p : Payload) : Statement (.decuCont p) := rfl
theorem decuTerm (p : Payload) : Statement (.decuTerm p) := rfl
theorem decsCont (p : Payload) : Statement (.decsCont p) := rfl
theorem decsTermPos (p : Payload) : Statement (.decsTermPos p) := rfl
theorem decsTermNeg (p : Payload) : Statement (.decsTermNeg p) := rfl
theorem encuOutCont (p : Payload) : Statement (.encuOutCont p) := rfl
theorem encuOutLast (p : Payload) : Statement (.encuOutLast p) := rfl
theorem encsOutCont (p : Payload) : Statement (.encsOutCont p) := rfl
theorem encsOutLast (p : Payload) : Statement (.encsOutLast p) := rfl
theorem srcByte (c : Codec) (b : Byte) : Statement (.srcByte c b) := rfl
theorem srcEof (c : Codec) : Statement (.srcEof c) := rfl
theorem srcErr (c : Codec) (k : Cause) : Statement (.srcErr c k) := rfl
theorem srcErrAlias (c : Codec) (k : Cause) : Statement (.srcErrAlias c k) := rfl
theorem resOk (c : Codec) : Statement (.resOk c) := rfl
theorem resOverflow (c : Codec) : Statement (.resOverflow c) := rfl
theorem resSrcFail (c : Codec) : Statement (.resSrcFail c) := rfl

end Sys2Proof.Laws.EncodesOnOwnPort
end

