-- ==== Sys2Proof/Laws/Steps.lean ====
section
/-! SUPPORT. What one step can do to a unit, said once: every invariant of a unit follows from these by cases. -/

namespace Sys2Proof.Machine

open Sys2Proof

/-- What one transfer can do to an encoder (42_command_and_result.md R171, R173; 40_unsigned_codec.md R112,
41_signed_codec.md R142). -/
inductive EncMove (c : Codec) (e : EncUnit) : EncUnit → Prop where
  | same : EncMove c e e
  | accept (val : Word) : EncMove c e (e.accept val)
  | emit (b : Byte) : EncMove c e (e.emitByte c b)

/-- What one transfer can do to a decoder (42_command_and_result.md R172 to R174; 40_unsigned_codec.md R121 to R125,
41_signed_codec.md R151 to R155). -/
inductive DecMove (c : Codec) (d : DecUnit) : DecUnit → Prop where
  | same : DecMove c d d
  | accept : DecMove c d d.accept
  | byte (b : Byte) (hr : d.st = .reading) (hc : d.cnt.toNat ≤ 10) : DecMove c d (d.readByte c b)
  | eof (hr : d.st = .reading) (hc : d.cnt.toNat ≤ 10) : DecMove c d d.endOfInput
  | err (k : Cause) (hr : d.st = .reading) (hc : d.cnt.toNat ≤ 10) : DecMove c d (d.raiseSourceFailure k)
  | handOver (status : Status) : DecMove c d (d.handOver status)

/-- A read attempt moves its own decoder by the outcome's rule, or moves nothing. -/
theorem attempt_move {s t : State} {c c' : Codec} {f : DecUnit → DecUnit} (h : s.attempt c f = .next t)
    (hf : ∀ d : DecUnit, d.st = .reading → d.cnt.toNat ≤ 10 → DecMove c d (f d)) :
    DecMove c' (s.dec c') (t.dec c') ∧ t.enc c' = s.enc c' := by
  rcases State.attempt_cases s c f with ⟨h1, h2, h3⟩ | ⟨_, _, h3⟩ | ⟨_, h3⟩
  · rw [h3] at h
    cases h
    refine ⟨?_, State.enc_setDec s c c' _⟩
    cases c <;> cases c' <;> first | exact .same | exact hf _ h1 h2
  · rw [h3] at h
    cases h
  · rw [h3] at h
    cases h
    exact ⟨.same, rfl⟩

/-- A step of one decoder that is no read attempt. -/
theorem onDec_move {s t : State} {c c' : Codec} {f : DecUnit → DecUnit} (h : s.onDec c f = .next t)
    (hf : ∀ d : DecUnit, DecMove c d (f d)) : DecMove c' (s.dec c') (t.dec c') ∧ t.enc c' = s.enc c' := by
  cases h
  refine ⟨?_, State.enc_setDec s c c' _⟩
  cases c <;> cases c' <;> first | exact .same | exact hf _

/-- A step of one encoder. -/
theorem onEnc_move {s t : State} {c c' : Codec} {f : EncUnit → EncUnit} (h : s.onEnc c f = .next t)
    (hf : ∀ e : EncUnit, EncMove c e (f e)) : EncMove c' (s.enc c') (t.enc c') ∧ t.dec c' = s.dec c' := by
  cases h
  refine ⟨?_, State.dec_setEnc s c c' _⟩
  cases c <;> cases c' <;> first | exact .same | exact hf _

/-- The byte classes of a decoder are its reading of the byte (30_encoding.md R98). -/
theorem exec_inByte (c : Codec) (b : Byte) (s : State) :
    exec (decodeInByte c b) s = s.attempt c (DecUnit.readByte c b) := by
  have hf : ∀ f : DecUnit → DecUnit, (∀ d, d.readByte c b = f d) → DecUnit.readByte c b = f := fun f h => funext h
  cases c <;> cases hb : contFlag b <;> cases hs : signFlag b <;>
    simp only [decodeInByte, hb, hs, exec] <;> symm <;>
    simp only [execDecuCont, execDecuTerm, execDecsCont, execDecsTermPos, execDecsTermNeg] <;> congr 1 <;>
    exact hf _ fun d => by simp [DecUnit.readByte, hb, hs]

/-- One transfer moves each unit by its rules (30_encoding.md R90 to R98). -/
theorem runWord_move {w : PortWord} {s t : State} (h : runWord w s = .next t) (c : Codec) :
    EncMove c (s.enc c) (t.enc c) ∧ DecMove c (s.dec c) (t.dec c) := by
  cases w with
  | command w =>
    simp only [runWord, decode, decodeCommand] at h
    split at h
    · have := onEnc_move (c' := c) h fun e => .accept _
      exact ⟨this.1, this.2 ▸ .same⟩
    · have := onDec_move (c' := c) h fun d => .accept
      exact ⟨this.2 ▸ .same, this.1⟩
    · have := onEnc_move (c' := c) h fun e => .accept _
      exact ⟨this.1, this.2 ▸ .same⟩
    · have := onDec_move (c' := c) h fun d => .accept
      exact ⟨this.2 ▸ .same, this.1⟩
  | outByte c' b =>
    simp only [runWord, decode, decodeOutByte] at h
    split at h <;>
    · have := onEnc_move (c' := c) h fun e => .emit _
      exact ⟨this.1, this.2 ▸ .same⟩
  | inByte c' b =>
    have := attempt_move (c' := c) ((exec_inByte c' b s).symm.trans h) fun d hr hc => .byte b hr hc
    exact ⟨this.2 ▸ .same, this.1⟩
  | outcome c' kind b k =>
    simp only [runWord, decode, decodeOutcome] at h
    split at h
    · have := attempt_move (c' := c) h fun d hr hc => .byte b hr hc
      exact ⟨this.2 ▸ .same, this.1⟩
    · have := attempt_move (c' := c) h fun d hr hc => .eof hr hc
      exact ⟨this.2 ▸ .same, this.1⟩
    · have := attempt_move (c' := c) h fun d hr hc => .err k hr hc
      exact ⟨this.2 ▸ .same, this.1⟩
    · have := attempt_move (c' := c) h fun d hr hc => .err k hr hc
      exact ⟨this.2 ▸ .same, this.1⟩
  | status c' code =>
    simp only [runWord, decode, decodeStatus] at h
    split at h <;> rename_i hd <;> split at hd <;> cases hd
    · have := onDec_move (c' := c) h fun d => .handOver .ok
      exact ⟨this.2 ▸ .same, this.1⟩
    · have := onDec_move (c' := c) h fun d => .handOver .overflow
      exact ⟨this.2 ▸ .same, this.1⟩
    · have := onDec_move (c' := c) h fun d => .handOver .srcFail
      exact ⟨this.2 ▸ .same, this.1⟩
    · cases h

/-- What every transfer keeps, a run of transfers keeps. -/
theorem runWords_keeps {P : State → Prop} (hw : ∀ w s t, runWord w s = .next t → P s → P t) :
    ∀ (l : List PortWord) (s t : State), runWords l s = .next t → P s → P t
  | [], s, t, h, hp => by cases h; exact hp
  | w :: ws, s, t, h, hp => by
    cases h1 : runWord w s with
    | next r =>
      rw [runWords, h1] at h
      exact runWords_keeps hw ws r t h (hw w s r h1 hp)
    | fault r => rw [runWords, h1] at h; cases h
    | refused r => rw [runWords, h1] at h; cases h

/-- What every transfer keeps, a reset edge keeps and the agenda does not touch, every step keeps. -/
theorem step_keeps {P : State → Prop} (ha : ∀ s a, P s → P (s.setAgenda a)) (hr : ∀ s, P s → P s.resetUnits)
    (hw : ∀ w s t, runWord w s = .next t → P s → P t) {s t : State} (h : step s = .next t) (hp : P s) : P t := by
  rcases hs : s.agenda with _ | ⟨m, rest⟩
  · simp only [step, hs] at h
    cases h
    exact hp
  · simp only [step, hs] at h
    have hp' := ha s rest hp
    cases m with
    | transfer w => exact hw w _ t h hp'
    | edge inp =>
      simp only [runStimulus, clockEdge] at h
      split at h
      · cases h
        exact hr _ hp'
      · exact runWords_keeps hw _ _ _ h hp'

end Sys2Proof.Machine
end

