-- ==== Sys2Proof/Tests/Slice0.lean ====
section
/-! SUPPORT. The model's own tests: the checks of WellFormed, words written out from spec/30_encoding.md, single steps
and whole encodings with the expected values of spec/95_test_vectors.md, and for each statement a witness of its
hypotheses. -/

namespace Sys2Proof.Tests

open Sys2Proof Sys2Proof.Machine

/-! ### Helpers: small states and what a test looks at -/

/-- The state after reset with decoder `c` in READING. -/
def reading (c : Codec) (cnt : BitVec 4) (acc : Word) : State :=
  State.reset.setDec c { DecUnit.atReset with st := .reading, cnt := cnt, acc := acc }

/-- The state after reset with decoder `c` in DONE. -/
def done (c : Codec) (acc : Word) : State :=
  State.reset.setDec c { DecUnit.atReset with st := .done, cnt := 1#4, acc := acc }

/-- The state after reset with decoder `c` in FAILED. -/
def failed (c : Codec) (kind : FailKind) : State :=
  State.reset.setDec c { DecUnit.atReset with st := .failed, cnt := 11#4, kind := kind }

/-- The state after reset with encoder `c` in EMIT. -/
def emitting (c : Codec) (rem : Word) : State :=
  State.reset.setEnc c { EncUnit.atReset with st := .emit, rem := rem }

/-- What a test looks at in an encoder: `st`, `rem`, and the bytes handed over. -/
def encOf (c : Codec) : Answer State → Option (EncSt × Word × List Byte)
  | .next t => some ((t.enc c).st, (t.enc c).rem, (t.enc c).out)
  | .fault _ => none
  | .refused _ => none

/-- What a test looks at in a decoder: `st`, `acc`, `cnt`, `kind`. -/
def decOf (c : Codec) : Answer State → Option (DecSt × Word × BitVec 4 × FailKind)
  | .next t => some ((t.dec c).st, (t.dec c).acc, (t.dec c).cnt, (t.dec c).kind)
  | .fault _ => none
  | .refused _ => none

/-- The statuses a decoder has handed over, and its state. -/
def resOf (c : Codec) : Answer State → Option (DecSt × List (Word × Status))
  | .next t => some ((t.dec c).st, (t.dec c).results.map fun r => (r.value, r.status))
  | .fault _ => none
  | .refused _ => none

/-! ### WellFormed refuses what no row spells -/

theorem test_wf_termPos_refuses_sign : Instr.wellFormed (.decsTermPos 0x40#7) = false := by decide
theorem test_wf_termNeg_refuses_no_sign : Instr.wellFormed (.decsTermNeg 0x3f#7) = false := by decide
theorem test_wf_termPos_accepts : Instr.wellFormed (.decsTermPos 0x3f#7) = true := by decide
theorem test_wf_termNeg_accepts : Instr.wellFormed (.decsTermNeg 0x40#7) = true := by decide

/-! ### Words written out from the encodings (R80, R90, R91, R94, R95, R98) -/

/-- S1: `0:0000000000000100`. -/
theorem test_decode_encu : decode (.command 0x00000000000000100#66) = .ok (.encu 256#64) := by rfl
/-- H5: `1:deadbeefdeadbeef`. -/
theorem test_decode_decu :
    decode (.command 0x1deadbeefdeadbeef#66) = .ok (.decu 0xdeadbeefdeadbeef#64) := by rfl
/-- S3: `2:ffffffffffffff00`. -/
theorem test_decode_encs :
    decode (.command 0x2ffffffffffffff00#66) = .ok (.encs 0xffffffffffffff00#64) := by rfl
/-- P2: `3:0000000000000000`. -/
theorem test_decode_decs : decode (.command 0x30000000000000000#66) = .ok (.decs 0#64) := by rfl
/-- R98: `1ppppppp` and `0ppppppp` for DECU. -/
theorem test_decode_decuCont : decode (.inByte .unsigned 0b10101100#8) = .ok (.decuCont 0b0101100#7) := by rfl
theorem test_decode_decuTerm : decode (.inByte .unsigned 0b01111111#8) = .ok (.decuTerm 0b1111111#7) := by rfl
/-- R98: `1ppppppp`, `00pppppp` and `01pppppp` for DECS. -/
theorem test_decode_decsCont : decode (.inByte .signed 0b11000000#8) = .ok (.decsCont 0b1000000#7) := by rfl
theorem test_decode_decsTermPos : decode (.inByte .signed 0b00111111#8) = .ok (.decsTermPos 0b0111111#7) := by rfl
theorem test_decode_decsTermNeg : decode (.inByte .signed 0b01111110#8) = .ok (.decsTermNeg 0b1111110#7) := by rfl
/-- R80, R112, R142: the class of an emitted byte is its bit 7. -/
theorem test_decode_encuOutCont : decode (.outByte .unsigned 0b10000000#8) = .ok (.encuOutCont 0#7) := by rfl
theorem test_decode_encuOutLast : decode (.outByte .unsigned 0b00000010#8) = .ok (.encuOutLast 2#7) := by rfl
theorem test_decode_encsOutCont : decode (.outByte .signed 0b10111111#8) = .ok (.encsOutCont 0x3f#7) := by rfl
theorem test_decode_encsOutLast : decode (.outByte .signed 0b01111110#8) = .ok (.encsOutLast 0x7e#7) := by rfl
/-- R94: the four outcome codes. -/
theorem test_decode_srcByte (k : Cause) : decode (.outcome .unsigned 0b00#2 0xe5#8 k) = .ok (.srcByte .unsigned 0xe5#8) := by
  rfl
theorem test_decode_srcEof (k : Cause) : decode (.outcome .signed 0b01#2 0xff#8 k) = .ok (.srcEof .signed) := by rfl
theorem test_decode_srcErr (k : Cause) : decode (.outcome .unsigned 0b10#2 0xff#8 k) = .ok (.srcErr .unsigned k) := by
  rfl
theorem test_decode_srcErrAlias (k : Cause) :
    decode (.outcome .signed 0b11#2 0xff#8 k) = .ok (.srcErrAlias .signed k) := by rfl
/-- R95: the status codes. -/
theorem test_decode_resOk : decode (.status .unsigned 0b00#2) = .ok (.resOk .unsigned) := by rfl
theorem test_decode_resOverflow : decode (.status .signed 0b01#2) = .ok (.resOverflow .signed) := by rfl
theorem test_decode_resSrcFail : decode (.status .unsigned 0b10#2) = .ok (.resSrcFail .unsigned) := by rfl
theorem test_decode_status_three : decode (.status .signed 0b11#2) = .error .statusNeverDriven := by rfl
/-- Command words as numbers, `op * 2^64 + val` (R90). -/
theorem test_encode_encs : encode (.encs 0xffffffffffffffbf#64) = .command 0x2ffffffffffffffbf#66 := by rfl
theorem test_encode_byte : encode (.decsTermNeg 0x7f#7) = .inByte .signed 0x7f#8 := by rfl

/-! ### The table's numbering: the first step after reset runs the word (log 5, log 6) -/

theorem test_table_command : decodeTableWord 72 0x2ffffffffffffff00 = some (.encs 0xffffffffffffff00#64) := by rfl
theorem test_table_byte : decodeTableWord 8 0x40 = some (.decsTermNeg 0x40#7) := by rfl
theorem test_table_outcome : decodeTableWord 2 1 = some (.srcEof .signed) := by rfl
theorem test_table_too_wide : decodeTableWord 8 0x100 = none := by rfl
/-- From reset, the placed command `0:...0100` is accepted (R171). -/
theorem test_placed_command_runs :
    encOf .unsigned (step (State.reset.withFetchWord 72 0x100)) = some (.emit, 256#64, []) := by rfl
/-- From reset, a placed byte `0x40` is read by DECS and gives -64 (41_signed_codec.md R159 c). -/
theorem test_placed_byte_runs :
    decOf .signed (step (State.reset.withFetchWord 8 0x40)) =
      some (.done, 0xffffffffffffffc0#64, 1#4, .overflow) := by rfl

/-! ### One step of each instruction, expected values from spec/95_test_vectors.md -/

/-- P1 step 1. -/
theorem test_encu_accepted : encOf .unsigned (exec (.encu 256#64) State.reset) = some (.emit, 256#64, []) := by rfl
/-- H2: ENCU in EMIT does not accept. -/
theorem test_encu_busy :
    encOf .unsigned (exec (.encu 7#64) (emitting .unsigned 256#64)) = some (.emit, 256#64, []) := by rfl
/-- H5: the operand of a decode is ignored. -/
theorem test_decu_accepted :
    decOf .unsigned (exec (.decu 0xdeadbeefdeadbeef#64) (reading .signed 3#4 5#64)) =
      some (.reading, 0#64, 0#4, .overflow) := by rfl
/-- P2 step 1. -/
theorem test_encs_accepted :
    encOf .signed (exec (.encs 0xffffffffffffff00#64) State.reset) = some (.emit, 0xffffffffffffff00#64, []) := by rfl
/-- P2 step 2. -/
theorem test_decs_accepted :
    decOf .signed (exec (.decs 0#64) State.reset) = some (.reading, 0#64, 0#4, .overflow) := by rfl
/-- P1 step 3: `0x80`, `rem = 2`. -/
theorem test_encu_out_cont :
    encOf .unsigned (exec (.encuOutCont 0#7) (emitting .unsigned 256#64)) = some (.emit, 2#64, [0x80#8]) := by rfl
/-- P1 step 4: `0x02`, the last byte. -/
theorem test_encu_out_last :
    encOf .unsigned (exec (.encuOutLast 2#7) (emitting .unsigned 2#64)) = some (.idle, 0#64, [0x02#8]) := by rfl
/-- Section 5, `ENCS -2^63`, ninth step: `p = 0x00`, `r' = ALL1`, `s = 0`, not done. -/
theorem test_encs_out_cont :
    encOf .signed (exec (.encsOutCont 0#7) (emitting .signed 0xffffffffffffff80#64)) =
      some (.emit, 0xffffffffffffffff#64, [0x80#8]) := by rfl
/-- P2 step 4: `0x7e`, the last byte. -/
theorem test_encs_out_last :
    encOf .signed (exec (.encsOutLast 0x7e#7) (emitting .signed 0xfffffffffffffffe#64)) =
      some (.idle, 0xffffffffffffffff#64, [0x7e#8]) := by rfl
/-- P6 step 4: DECU reads `0xac`. -/
theorem test_decu_cont :
    decOf .unsigned (exec (.decuCont 0x2c#7) (reading .unsigned 0#4 0#64)) =
      some (.reading, 0x2c#64, 1#4, .overflow) := by rfl
/-- U27: the eleventh `0x80` is Overflow. -/
theorem test_decu_overflow :
    decOf .unsigned (exec (.decuCont 0#7) (reading .unsigned 10#4 0xffffffffffffffff#64)) =
      some (.failed, 0#64, 11#4, .overflow) := by rfl
/-- U6: `0x80 0x02`. -/
theorem test_decu_term :
    decOf .unsigned (exec (.decuTerm 2#7) (reading .unsigned 1#4 0#64)) = some (.done, 256#64, 2#4, .overflow) := by
  rfl
/-- U20: nine bytes `0x80`, then `0x03`: only bit 0 of the tenth byte is kept. -/
theorem test_decu_term_tenth :
    decOf .unsigned (exec (.decuTerm 3#7) (reading .unsigned 9#4 0#64)) =
      some (.done, 0x8000000000000000#64, 10#4, .overflow) := by rfl
/-- P6 step 5: DECS reads `0xbf`, whose bit 6 is an ordinary payload bit here. -/
theorem test_decs_cont :
    decOf .signed (exec (.decsCont 0x3f#7) (reading .signed 0#4 0#64)) =
      some (.reading, 0x3f#64, 1#4, .overflow) := by rfl
/-- X34: the eleventh `0xff`. -/
theorem test_decs_overflow :
    decOf .signed (exec (.decsCont 0x7f#7) (reading .signed 10#4 0xffffffffffffffff#64)) =
      some (.failed, 0#64, 11#4, .overflow) := by rfl
/-- `[0x3f]` is 63 (41_signed_codec.md R159 c). -/
theorem test_decs_term_pos :
    decOf .signed (exec (.decsTermPos 0x3f#7) (reading .signed 0#4 0#64)) =
      some (.done, 63#64, 1#4, .overflow) := by rfl
/-- X20: eight bytes `0x80`, then `0x40`: `ones_from(63)` sets bit 63. -/
theorem test_decs_term_neg :
    decOf .signed (exec (.decsTermNeg 0x40#7) (reading .signed 8#4 0#64)) =
      some (.done, 0xc000000000000000#64, 9#4, .overflow) := by rfl
/-- X25: nine bytes `0xff`, then `0x40`: the sign flag of the tenth byte is without effect. -/
theorem test_decs_term_neg_tenth :
    decOf .signed (exec (.decsTermNeg 0x40#7) (reading .signed 9#4 0x7fffffffffffffff#64)) =
      some (.done, 0x7fffffffffffffff#64, 10#4, .overflow) := by rfl
/-- P6 step 6: DECS reads `BYTE(0x7f)`. -/
theorem test_src_byte :
    decOf .signed (exec (.srcByte .signed 0x7f#8) (reading .signed 1#4 0x3f#64)) =
      some (.done, 0xffffffffffffffbf#64, 2#4, .overflow) := by rfl
/-- U25: ten bytes `0xff`, then `0x7f`: an eleventh terminator is OK. -/
theorem test_src_byte_eleventh :
    decOf .unsigned (exec (.srcByte .unsigned 0x7f#8) (reading .unsigned 10#4 0xffffffffffffffff#64)) =
      some (.done, 0xffffffffffffffff#64, 11#4, .overflow) := by rfl
/-- `[0xc0]` then `EOF` gives 64: no sign extension (41_signed_codec.md R159 d). -/
theorem test_src_eof :
    decOf .signed (exec (.srcEof .signed) (reading .signed 1#4 0x40#64)) = some (.done, 0x40#64, 1#4, .overflow) := by
  rfl
/-- U21: `EOF` at `cnt = 10` is OK. -/
theorem test_src_eof_at_ten :
    decOf .unsigned (exec (.srcEof .unsigned) (reading .unsigned 10#4 0xffffffffffffffff#64)) =
      some (.done, 0xffffffffffffffff#64, 10#4, .overflow) := by rfl
/-- U30: the partial value is lost, the cause is forwarded. -/
theorem test_src_err (k : Cause) :
    decOf .unsigned (exec (.srcErr .unsigned k) (reading .unsigned 2#4 0x765#64)) =
      some (.failed, 0#64, 2#4, .ioError) := by rfl
/-- H6: the cause on the result port. -/
theorem test_src_err_cause (k : Cause) :
    ((reading .unsigned 0#4 0#64).decu.raiseSourceFailure k).offer? =
      some { value := 0#64, status := .srcFail, cause := k } := by rfl
/-- U33: code 3. -/
theorem test_src_err_alias (k : Cause) :
    decOf .unsigned (exec (.srcErrAlias .unsigned k) (reading .unsigned 0#4 0#64)) =
      some (.failed, 0#64, 0#4, .ioError) := by rfl
/-- P1 step 5. -/
theorem test_res_ok :
    resOf .unsigned (exec (.resOk .unsigned) (done .unsigned 256#64)) = some (.idle, [(256#64, .ok)]) := by rfl
/-- H7, and the result taken (R174). -/
theorem test_res_overflow :
    resOf .signed (exec (.resOverflow .signed) (failed .signed .overflow)) = some (.idle, [(0#64, .overflow)]) := by
  rfl
/-- P5 step 4. -/
theorem test_res_src_fail :
    resOf .signed (exec (.resSrcFail .signed) (failed .signed .ioError)) = some (.idle, [(0#64, .srcFail)]) := by rfl
/-- Log 10: the model's own stop. -/
theorem test_count_out_of_range :
    exec (.decuTerm 0#7) (reading .unsigned 11#4 0#64) = .fault .countOutOfRange := by rfl
/-- Log 11: the model's own refusal. -/
theorem test_status_three_refused :
    step (State.reset.setAgenda [.transfer (.status .signed 3#2)]) = .refused (.undecodable .statusNeverDriven) := by
  rfl

/-! ### Ports and edges -/

/-- H1. -/
theorem test_reset_ready : State.reset.cmdReady = 0b1111#4 := by decide
/-- H2. -/
theorem test_ready_encu_busy : (emitting .unsigned 256#64).cmdReady = 0b1110#4 := by decide
/-- H4: the offered byte. -/
theorem test_offered_byte :
    (emitting .unsigned 256#64).outputs.eu = some { byte := 0x80#8, last := false } := by decide
/-- H8: `rst = 1` with `eu_ready = 1` emits nothing. -/
theorem test_reset_edge :
    (match step ((emitting .unsigned 256#64).setAgenda [.edge { Inputs.quiet with rst := true, euReady := true }]) with
      | .next t => t.encu.st = .idle ∧ t.encu.out = []
      | _ => False) := ⟨rfl, rfl⟩
/-- P6 step 5, DECU's half: one edge with an offered byte. -/
theorem test_edge_reads_byte :
    decOf .unsigned (step ((reading .unsigned 1#4 0x2c#64).setAgenda [byteEdge .unsigned 0x02#8])) =
      some (.done, 0x12c#64, 2#4, .overflow) := by rfl

/-! ### Whole encodings -/

/-- Sections 3 and 5: 624485, 2^64 - 1, -65 and 2^62. -/
theorem test_encode_624485 : encodeValue .unsigned 624485#64 = [0xe5#8, 0x8e#8, 0x26#8] := by decide
theorem test_encode_max : encodeValue .unsigned 0xffffffffffffffff#64 = List.replicate 9 0xff#8 ++ [0x01#8] := by
  decide
theorem test_encode_minus_65 : encodeValue .signed 0xffffffffffffffbf#64 = [0xbf#8, 0x7f#8] := by decide
theorem test_encode_two_pow_62 :
    encodeValue .signed 0x4000000000000000#64 = List.replicate 8 0x80#8 ++ [0xc0#8, 0x00#8] := by decide
/-- U14 and X23: `uval` of a truncated value, `sval` of the most negative one. -/
theorem test_uval_truncated : uval [0xe5#8, 0x8e#8] = 1893#64 := by decide
theorem test_sval_min : sval (List.replicate 9 0x80#8 ++ [0x7f#8]) = 0x8000000000000000#64 := by decide

/-! ### Witnesses: for each statement with hypotheses, values that meet all of them together -/

/-- EncodedInstructionDecodesBack, at the two sides of the one check that WellFormed makes. -/
theorem test_witness_encodedInstructionDecodesBack :
    Instr.wellFormed (.decsTermPos 0x3f#7) = true ∧ Instr.wellFormed (.decsTermNeg 0x7f#7) = true ∧
      Instr.wellFormed (.srcErrAlias .signed 0#_) = true := by decide

/-- StatusCodes and OfferedResult: an offered result of each kind, none in IDLE and READING, in states that meet R35. -/
theorem test_witness_statusCodes :
    (done .unsigned 5#64).decu.offer? = some { value := 5#64, status := .ok, cause := 0#_ } ∧
    (failed .unsigned .overflow).decu.offer? = some { value := 0#64, status := .overflow, cause := 0#_ } ∧
    (failed .unsigned .ioError).decu.offer? = some { value := 0#64, status := .srcFail, cause := 0#_ } :=
  ⟨rfl, rfl, rfl⟩

theorem test_witness_offeredResult :
    (failed .signed .overflow).Inv ∧ ((failed .signed .overflow).dec .signed).st = .failed ∧
      ((failed .signed .overflow).dec .signed).kind = .overflow ∧ Status.overflow ≠ Status.ok ∧
      ((failed .signed .ioError).dec .signed).kind = .ioError ∧ (done .signed 1#64).decs.st = .done ∧
      (reading .signed 0#4 0#64).decs.st = .reading ∧ State.reset.decs.st = .idle := by
  refine ⟨?_, rfl, rfl, by decide, rfl, rfl, rfl, rfl⟩
  simp [State.Inv, DecUnit.Inv, failed, State.setDec, State.reset, DecUnit.atReset]

/-- PlacedWordRunsNext: each width of the table. -/
theorem test_witness_placedWordRunsNext :
    decodeTableWord 66 0x3ffffffffffffffff = some (.decs 0xffffffffffffffff#64) ∧
      decodeTableWord 72 0 = some (.encu 0#64) ∧ decodeTableWord 8 0xff = some (.decsCont 0x7f#7) ∧
      decodeTableWord 2 0 = some (.srcByte .signed 0#8) := ⟨rfl, rfl, rfl, rfl⟩

/-- StepRunsDecodedInstruction. -/
theorem test_witness_stepRunsDecodedInstruction :
    (State.reset.setAgenda [.transfer (.inByte .signed 0x40#8)]).agenda = [.transfer (.inByte .signed 0x40#8)] ∧
      decode (.inByte .signed 0x40#8) = .ok (.decsTermNeg 0x40#7) := ⟨rfl, rfl⟩

/-- EdgeRunsItsTransfer: an edge with one transfer, and one with none. -/
theorem test_witness_edgeRunsItsTransfer :
    (emitting .unsigned 256#64).transfers { Inputs.quiet with euReady := true } = [.outByte .unsigned 0x80#8] ∧
      decode (.outByte .unsigned 0x80#8) = .ok (.encuOutCont 0#7) ∧
      (emitting .unsigned 256#64).transfers { Inputs.quiet with esReady := true } = [] := ⟨rfl, rfl, rfl⟩

/-- P6 before step 4, the wires of that step on top of the state: `3:0` offered, ENCS's consumer ready, `0xac` for DECU. -/
def beforeStep4 : State :=
  ((reading .unsigned 0#4 0#64).setEnc .signed
    { EncUnit.atReset with st := .emit, rem := 0xffffffffffffffff#64 }).setAgenda
    [.edge { Inputs.quiet with
      cmdValid := true, cmdOp := 3#2, euReady := true, esReady := true, duSrcValid := true, duSrcByte := 0xac#8 }]

/-- EdgeRunsItsTransfer: P6 step 4, an edge at which three ports transfer and one ready consumer has no byte to take; the
state meets R35. -/
theorem test_witness_edge_several :
    beforeStep4.transfers { Inputs.quiet with
      cmdValid := true, cmdOp := 3#2, euReady := true, esReady := true, duSrcValid := true, duSrcByte := 0xac#8 } =
      [.command 0x30000000000000000#66, .outByte .signed 0x7f#8, .outcome .unsigned 0#2 0xac#8 0#_] ∧
    beforeStep4.Inv := by
  refine ⟨rfl, ?_⟩
  simp [State.Inv, DecUnit.Inv, beforeStep4, reading, State.setDec, State.setEnc, State.setAgenda, State.reset,
    DecUnit.atReset]

/-- P6 step 4: what that edge leaves in DECU, in ENCS and in DECS. -/
theorem test_edge_several :
    decOf .unsigned (step beforeStep4) = some (.reading, 0x2c#64, 1#4, .overflow) ∧
      encOf .signed (step beforeStep4) = some (.idle, 0xffffffffffffffff#64, [0x7f#8]) ∧
      decOf .signed (step beforeStep4) = some (.reading, 0#64, 0#4, .overflow) := ⟨rfl, rfl, rfl⟩

/-- QuietEnvironmentChangesNothing: no move, a quiet edge, and in a finished run an edge that offers a byte and a
transfer of one (R178). -/
theorem test_witness_quietEnvironment :
    State.reset.agenda = [] ∧ (State.reset.setAgenda [.edge Inputs.quiet]).agenda = [.edge Inputs.quiet] ∧
      (State.reset.setAgenda [.edge { Inputs.quiet with duSrcValid := true }]).finished = true ∧
      ({ Inputs.quiet with duSrcValid := true } : Inputs).rst = false ∧
      (State.reset.setAgenda [.transfer (.inByte .signed 0x40#8)]).finished = true ∧
      decode (.inByte .signed 0x40#8) = .ok (.decsTermNeg 0x40#7) := ⟨rfl, rfl, rfl, rfl, rfl, rfl⟩

/-- R178: a run is not finished while a unit is busy, nor while the host offers a command. -/
theorem test_finished_not_while_busy : (done .signed 1#64).finished = false := by decide
theorem test_finished_not_with_offer : (State.reset.setAgenda [commandEdge 1#2 0#64]).finished = false := by rfl

/-- EncoderAcceptsCommand and DecoderAcceptsCommand: all four units are in IDLE. -/
theorem test_witness_acceptsCommand :
    State.reset.encu.st = .idle ∧ State.reset.encs.st = .idle ∧ State.reset.decu.st = .idle ∧
      State.reset.decs.st = .idle := ⟨rfl, rfl, rfl, rfl⟩

/-- BusyUnitDoesNotAccept: each unit busy. -/
theorem test_witness_busyUnit :
    (emitting .unsigned 1#64).encu.st ≠ .idle ∧ (reading .unsigned 0#4 0#64).decu.st ≠ .idle ∧
      (emitting .signed 1#64).encs.st ≠ .idle ∧ (failed .signed .ioError).decs.st ≠ .idle := by decide

/-- EncuPresentedByte and EncsPresentedByte. -/
theorem test_witness_presentedByte :
    (emitting .unsigned 0#64).encu.st = .emit ∧ (emitting .signed 0#64).encs.st = .emit := ⟨rfl, rfl⟩

/-- EncuStep: a byte with bit 7 set, one with bit 7 clear, and an edge at which the consumer is not ready. -/
theorem test_witness_encuStep :
    (emitting .unsigned 128#64).encu.st = .emit ∧ nextByte .unsigned 128#64 = mkByte true 0#7 ∧
      nextByte .unsigned 127#64 = mkByte false 0x7f#7 := by decide

theorem test_witness_encuStep_waits :
    step ((emitting .unsigned 128#64).setAgenda [takeEdge .signed]) = .next (emitting .unsigned 128#64) := by rfl

/-- EncsStep: 64 needs a second byte, -64 does not. -/
theorem test_witness_encsStep :
    (emitting .signed 64#64).encs.st = .emit ∧ nextByte .signed 64#64 = mkByte true 0x40#7 ∧
      nextByte .signed 0xffffffffffffffc0#64 = mkByte false 0x40#7 := by decide

theorem test_witness_encsStep_waits :
    step ((emitting .signed 64#64).setAgenda [takeEdge .unsigned]) = .next (emitting .signed 64#64) := by rfl

/-- UnofferedTransferChangesNothing: another byte than the one presented, in all four classes, and each status that is
not the offered one. -/
theorem test_witness_unofferedTransfer :
    nextByte .unsigned 128#64 ≠ mkByte true 1#7 ∧ nextByte .unsigned 128#64 ≠ mkByte false 0#7 ∧
      nextByte .signed 64#64 ≠ mkByte true 0#7 ∧ nextByte .signed 64#64 ≠ mkByte false 0x40#7 ∧
      State.reset.encu.st = .idle ∧ State.reset.encs.st = .idle ∧
      (failed .unsigned .overflow).decu.status? ≠ some .ok ∧ (done .signed 0#64).decs.status? ≠ some .overflow ∧
      (reading .signed 0#4 0#64).decs.status? ≠ some .srcFail := by decide

/-- RemainderAfterSteps: the bound itself. -/
theorem test_witness_remainderAfterSteps : 9 ≤ 9 := by decide

/-- EncodingBytes: the tenth byte of a ten-byte encoding, for both encoders. -/
theorem test_witness_encodingBytes :
    9 < (encodeValue .unsigned 0x8000000000000000#64).length ∧
      9 < (encodeValue .signed 0x8000000000000000#64).length := by decide

/-- UnsignedLengthIsLeast: 127 fits one byte, 128 needs two (R84). -/
theorem test_witness_unsignedLength :
    (127#64).toNat < 2 ^ (7 * 1) ∧ ¬ (128#64).toNat < 2 ^ (7 * 1) ∧ (128#64).toNat < 2 ^ (7 * 2) := by decide

/-- SignedLengthIsLeast: -64 and 63 fit one byte, 64 does not (R85). -/
theorem test_witness_signedLength :
    -(2 : Int) ^ (7 * 1 - 1) ≤ (0xffffffffffffffc0#64).toInt ∧ (0xffffffffffffffc0#64).toInt < 2 ^ (7 * 1 - 1) ∧
      (63#64).toInt < 2 ^ (7 * 1 - 1) ∧ ¬ (64#64).toInt < 2 ^ (7 * 1 - 1) := by decide

/-- EncodingIsShortestAndUnique: nine bytes, of the length that the encoder gives. -/
theorem test_witness_encodingIsShortest :
    allCont (List.replicate 8 0x80#8) ∧ contFlag 0x01#8 = false ∧ (List.replicate 8 0x80#8).length ≤ 8 ∧
      (encodeValue .unsigned (valueOf .unsigned (List.replicate 8 0x80#8 ++ [0x01#8]))).length = 8 + 1 ∧
      (encodeValue .signed (valueOf .signed (List.replicate 8 0x80#8 ++ [0x40#8]))).length = 8 + 1 := by decide

/-- EncoderOperation: the unit in IDLE and the environment of S1. -/
theorem test_witness_encoderOperation :
    (State.reset.enc .unsigned).st = .idle ∧
      (State.reset.setAgenda (commandEdge (encOp .unsigned) 256#64 ::
        (List.replicate (encodeValue .unsigned 256#64).length (takeEdge .unsigned) ++ []))).agenda =
        [commandEdge 0#2 256#64, takeEdge .unsigned, takeEdge .unsigned] := ⟨rfl, rfl⟩

/-- DecuContinuation, DecsContinuation, ByteOutcomeRunsItsClass: the first and the tenth byte. -/
theorem test_witness_continuation :
    (reading .unsigned 0#4 0#64).decu.st = .reading ∧ (reading .unsigned 0#4 0#64).decu.cnt.toNat ≤ 9 ∧
      (reading .signed 9#4 0#64).decs.st = .reading ∧ (reading .signed 9#4 0#64).decs.cnt.toNat ≤ 9 := by decide

/-- DecuTerminator, DecsTerminator, CleanEndOfInput, ReadFailure, EleventhTerminatorIsOk: the eleventh read attempt; and
the two classes of DECS's terminating byte. -/
theorem test_witness_eleventh_attempt :
    (reading .unsigned 10#4 0#64).decu.st = .reading ∧ (reading .unsigned 10#4 0#64).decu.cnt.toNat ≤ 10 ∧
      (reading .signed 10#4 0#64).decs.st = .reading ∧ (reading .signed 10#4 0#64).decs.cnt = 10#4 ∧
      (0x3f#7 : Payload).getLsbD 6 = false ∧ (0x40#7 : Payload).getLsbD 6 = true ∧ contFlag 0x7f#8 = false := by decide

/-- DecuOverflow, DecsOverflow, and the last clause of ByteOutcomeRunsItsClass. -/
theorem test_witness_overflow :
    (reading .unsigned 10#4 0#64).decu.cnt = 10#4 ∧ (reading .signed 10#4 0#64).decs.cnt = 10#4 ∧
      contFlag 0x80#8 = true ∧ decode (.inByte .unsigned 0x80#8) = .ok (.decuCont 0#7) := ⟨rfl, rfl, rfl, rfl⟩

/-- TenthByteKeepsOneBit. -/
theorem test_witness_tenthByte :
    ((reading .signed 9#4 0#64).dec .signed).st = .reading ∧ ((reading .signed 9#4 0#64).dec .signed).cnt = 9#4 :=
  ⟨rfl, rfl⟩

/-- ReadsOnlyInReading: a read of each decoder while it is not in READING. -/
theorem test_witness_readsOnlyInReading :
    isRead (.decuTerm 0#7) = true ∧ unitOf (.decuTerm 0#7) = .decu ∧ (done .unsigned 0#64).decu.st ≠ .reading ∧
      isRead (.srcEof .signed) = true ∧ unitOf (.srcEof .signed) = .decs ∧
      (failed .signed .overflow).decs.st ≠ .reading := by decide

/-- SilentSourceBlocks: DECS waits while another unit moves. -/
theorem test_witness_silentSource :
    ((reading .signed 1#4 1#64).dec .signed).st = .reading ∧ ({ Inputs.quiet with cmdValid := true }).srcValid .signed = false ∧
      encOf .unsigned (step ((reading .signed 1#4 1#64).setAgenda [.edge { Inputs.quiet with cmdValid := true }])) =
        some (.emit, 0#64, []) := ⟨rfl, rfl, rfl⟩

/-- ResultTransfer: a result of each status, and an edge at which the host does not take it. -/
theorem test_witness_resultTransfer :
    ((done .signed 1#64).dec .signed).st = .done ∧ ((failed .signed .overflow).dec .signed).kind = .overflow ∧
      ((failed .unsigned .ioError).dec .unsigned).kind = .ioError ∧
      step ((done .signed 1#64).setAgenda [resultEdge .unsigned]) = .next (done .signed 1#64) :=
  ⟨rfl, rfl, rfl, rfl⟩

/-- DecodeEndsOnTerminator, DecodeEndsOnEndOfInput and the first clause of DecodeEndsInFailure: no byte, and ten bytes,
before the end. -/
theorem test_witness_decodeEnds :
    (State.reset.dec .signed).st = .idle ∧ allCont ([] : List Byte) ∧ allCont (List.replicate 10 0xff#8) ∧
      (List.replicate 10 0xff#8).length ≤ 10 ∧ contFlag 0x7f#8 = false := by decide

theorem test_witness_decodeEnds_agenda :
    (State.reset.setAgenda (commandEdge (decOp .signed) 0#64 ::
      ((List.replicate 10 0xff#8 ++ [0x7f#8]).map (byteEdge .signed) ++ []))).agenda.length = 12 := by rfl

/-- DecodeEndsInFailure: both error codes, and the eleven bytes of Overflow. -/
theorem test_witness_decodeEndsInFailure :
    allCont (List.replicate 11 0x80#8) ∧ (List.replicate 11 0x80#8).length = 11 ∧
      ((2#2 : BitVec 2) = 2#2 ∨ (2#2 : BitVec 2) = 3#2) ∧ ((3#2 : BitVec 2) = 2#2 ∨ (3#2 : BitVec 2) = 3#2) := by decide

/-- RoundTripOnTheMachine: P2's environment for DECS. -/
theorem test_witness_roundTrip :
    (State.reset.dec .signed).st = .idle ∧
      (State.reset.setAgenda (commandEdge (decOp .signed) 0#64 ::
        ((encodeValue .signed 0xffffffffffffff00#64).map (byteEdge .signed) ++ resultEdge .signed :: []))).agenda =
        [commandEdge 3#2 0#64, byteEdge .signed 0x80#8, byteEdge .signed 0x7e#8, resultEdge .signed] := ⟨rfl, rfl⟩

/-- EarlyTermination: H3, a decoder in DONE whose source goes on offering. -/
theorem test_witness_earlyTermination :
    ((done .signed 1#64).dec .signed).st ≠ .reading ∧
      ((done .signed 1#64).setAgenda ([0x10#8, 0x0f#8].map (byteEdge .signed) ++ [])).agenda =
        [byteEdge .signed 0x10#8, byteEdge .signed 0x0f#8] := ⟨by decide, rfl⟩

/-- UnitsAreIsolated. -/
theorem test_witness_unitsAreIsolated :
    exec (.encuOutLast 2#7) (emitting .unsigned 2#64) =
      .next (State.reset.setEnc .unsigned { st := .idle, rem := 0#64, out := [0x02#8] }) ∧
      UnitName.decs ≠ unitOf (.encuOutLast 2#7) := ⟨rfl, by decide⟩

/-- EdgeOrderDoesNotMatter: an edge with two transfers, in the other order. -/
theorem test_witness_edgeOrder :
    ((emitting .unsigned 2#64).transfers { Inputs.quiet with cmdValid := true, cmdOp := 3#2, euReady := true }) =
      [.command 0x30000000000000000#66, .outByte .unsigned 0x02#8] ∧
    List.Perm [PortWord.outByte .unsigned 0x02#8, .command 0x30000000000000000#66]
      [.command 0x30000000000000000#66, .outByte .unsigned 0x02#8] := ⟨rfl, .swap _ _ _⟩

/-- Ten continuation bytes read, the eleventh on its way. -/
def beforeOverflow : State :=
  (State.reset.setDec .unsigned
    { DecUnit.atReset with st := .reading, cnt := 10#4, taken := List.replicate 10 0x80#8 }).setAgenda
    [.transfer (.inByte .unsigned 0x80#8)]

/-- StepKeepsDecoderInvariant and StepKeepsSpelling: a state in the middle of an operation, and its step. -/
theorem test_witness_stepKeeps :
    beforeOverflow.Inv ∧ decOf .unsigned (step beforeOverflow) = some (.failed, 0#64, 11#4, .overflow) := by
  refine ⟨?_, rfl⟩
  simp [State.Inv, DecUnit.Inv, beforeOverflow, State.setDec, State.setAgenda, State.reset, DecUnit.atReset]

theorem test_witness_stepKeepsSpelling : beforeOverflow.Spells := by
  refine ⟨fun _ => ⟨rfl, fun _ => ⟨by decide, by decide, by decide⟩, ?_, ?_⟩, fun h => absurd rfl h⟩ <;>
    (intro h; cases h)

/-- IdleRegistersDoNotMatter: two states that differ in a register of an IDLE unit; two such units. -/
theorem test_witness_idleRegisters :
    State.reset.Agrees (State.reset.setEnc .unsigned { EncUnit.atReset with rem := 5#64 }) ∧
      State.reset ≠ State.reset.setEnc .unsigned { EncUnit.atReset with rem := 5#64 } ∧
      EncUnit.atReset.st = .idle ∧ EncUnit.atReset.Agrees { EncUnit.atReset with rem := 5#64 } ∧
      DecUnit.atReset.st = .idle ∧ DecUnit.atReset.Agrees { DecUnit.atReset with acc := 5#64 } := by
  refine ⟨⟨⟨rfl, rfl, fun h => absurd rfl h⟩, ⟨rfl, rfl, rfl, fun h => absurd rfl h⟩,
    ⟨rfl, rfl, fun h => absurd rfl h⟩, ⟨rfl, rfl, rfl, fun h => absurd rfl h⟩, rfl⟩, ?_, rfl,
    ⟨rfl, rfl, fun h => absurd rfl h⟩, rfl, ⟨rfl, rfl, rfl, fun h => absurd rfl h⟩⟩
  intro h
  have := congrArg (fun s : State => s.encu.rem) h
  revert this
  decide

/-- StopsAreOnlyTheModelsOwn: a refused step, a faulting instruction, and a state that meets R35. -/
theorem test_witness_stops :
    step (State.reset.setAgenda [.transfer (.status .unsigned 3#2)]) = .refused (.undecodable .statusNeverDriven) ∧
      isRead (.srcEof .signed) = true ∧ unitOf (.srcEof .signed) = .decs ∧
      (reading .signed 11#4 0#64).decs.st = .reading ∧ 10 < (reading .signed 11#4 0#64).decs.cnt.toNat ∧
      beforeOverflow.Inv := ⟨rfl, rfl, rfl, rfl, by decide, test_witness_stepKeeps.1⟩

/-- StreamsOnlyGrow: a step that adds a byte. -/
theorem test_witness_streamsOnlyGrow :
    step ((emitting .unsigned 2#64).setAgenda [takeEdge .unsigned]) =
      .next (State.reset.setEnc .unsigned { st := .idle, rem := 0#64, out := [0x02#8] }) := by rfl

/-- ResetEdge: an edge with `rst = 1`; and without reset an encoder and a decoder that come to IDLE. -/
theorem test_witness_resetEdge :
    ({ Inputs.quiet with rst := true } : Inputs).rst = true ∧
      (emitting .unsigned 2#64).encu.st ≠ .idle ∧
      encOf .unsigned (step ((emitting .unsigned 2#64).setAgenda [takeEdge .unsigned])) =
        some (.idle, 0#64, [0x02#8]) ∧
      (done .signed 7#64).decs.st ≠ .idle ∧
      resOf .signed (step ((done .signed 7#64).setAgenda [resultEdge .signed])) = some (.idle, [(7#64, .ok)]) :=
  ⟨rfl, by decide, rfl, by decide, rfl⟩

/-- ShiftsAreArithmetic: the shift by the full width. -/
theorem test_witness_shifts : 64 ≤ 64 ∧ shl64 1#64 63 = 0x8000000000000000#64 ∧ onesFrom 63 = 0x8000000000000000#64 := by
  decide

end Sys2Proof.Tests
end

section
/-! SUPPORT. Each unit is a component of the state: what a step of one unit reads and writes (00_scope.md R15). -/

namespace Sys2Proof.Machine

open Sys2Proof

/-! ### `sameUnit` as an equivalence, and at the two kinds of unit -/

theorem sameUnit_refl (u : UnitName) (s : State) : sameUnit u s s := by
  cases u <;> rfl

theorem sameUnit_symm {u : UnitName} {s t : State} (h : sameUnit u s t) : sameUnit u t s := by
  cases u <;> exact Eq.symm h

theorem sameUnit_trans {u : UnitName} {s t r : State} (h : sameUnit u s t) (h' : sameUnit u t r) :
    sameUnit u s r := by
  cases u <;> exact Eq.trans h' h

@[simp] theorem sameUnit_enc (c : Codec) (s t : State) : sameUnit (.enc c) s t ↔ t.enc c = s.enc c := by
  cases c <;> rfl

@[simp] theorem sameUnit_dec (c : Codec) (s t : State) : sameUnit (.dec c) s t ↔ t.dec c = s.dec c := by
  cases c <;> rfl

theorem sameUnit_setAgenda (u : UnitName) (s : State) (a : List Stimulus) : sameUnit u s (s.setAgenda a) := by
  cases u <;> rfl

/-- Writing one encoder leaves the three other units alone. -/
theorem sameUnit_setEnc {u : UnitName} {c : Codec} (h : u ≠ .enc c) (s : State) (e : EncUnit) :
    sameUnit u s (s.setEnc c e) := by
  cases u with
  | encu => cases c with
    | unsigned => exact absurd rfl h
    | signed => rfl
  | encs => cases c with
    | unsigned => rfl
    | signed => exact absurd rfl h
  | decu => exact State.setEnc_decu s c e
  | decs => exact State.setEnc_decs s c e

/-- Writing one decoder leaves the three other units alone. -/
theorem sameUnit_setDec {u : UnitName} {c : Codec} (h : u ≠ .dec c) (s : State) (d : DecUnit) :
    sameUnit u s (s.setDec c d) := by
  cases u with
  | encu => exact State.setDec_encu s c d
  | encs => exact State.setDec_encs s c d
  | decu => cases c with
    | unsigned => exact absurd rfl h
    | signed => rfl
  | decs => cases c with
    | unsigned => rfl
    | signed => exact absurd rfl h

/-! ### The three shapes of an instruction's meaning -/

/-- The steps of the unit `u`: a step of an encoder, a step of a decoder, or a read attempt of a decoder. -/
inductive UnitAction : UnitName → (State → Answer State) → Prop where
  | onEnc (c : Codec) (f : EncUnit → EncUnit) : UnitAction (.enc c) fun s => s.onEnc c f
  | onDec (c : Codec) (f : DecUnit → DecUnit) : UnitAction (.dec c) fun s => s.onDec c f
  | attempt (c : Codec) (f : DecUnit → DecUnit) : UnitAction (.dec c) fun s => s.attempt c f

/-- Every instruction is a step of its own unit (00_scope.md R15). -/
theorem exec_unitAction : ∀ i : Instr, UnitAction (unitOf i) (exec i)
  | .encu val => .onEnc .unsigned (EncUnit.accept val)
  | .decu _ => .onDec .unsigned DecUnit.accept
  | .encs val => .onEnc .signed (EncUnit.accept val)
  | .decs _ => .onDec .signed DecUnit.accept
  | .decuCont p => .attempt .unsigned (DecUnit.readCont p)
  | .decuTerm p => .attempt .unsigned (DecUnit.readTerm p)
  | .decsCont p => .attempt .signed (DecUnit.readCont p)
  | .decsTermPos p => .attempt .signed (DecUnit.readTerm p)
  | .decsTermNeg p => .attempt .signed (DecUnit.readTermSigned p)
  | .encuOutCont p => .onEnc .unsigned (EncUnit.emitByte .unsigned (mkByte true p))
  | .encuOutLast p => .onEnc .unsigned (EncUnit.emitByte .unsigned (mkByte false p))
  | .encsOutCont p => .onEnc .signed (EncUnit.emitByte .signed (mkByte true p))
  | .encsOutLast p => .onEnc .signed (EncUnit.emitByte .signed (mkByte false p))
  | .srcByte c b => .attempt c (DecUnit.readByte c b)
  | .srcEof c => .attempt c DecUnit.endOfInput
  | .srcErr c k => .attempt c (DecUnit.raiseSourceFailure k)
  | .srcErrAlias c k => .attempt c (DecUnit.raiseSourceFailure k)
  | .resOk c => .onDec c (DecUnit.handOver .ok)
  | .resOverflow c => .onDec c (DecUnit.handOver .overflow)
  | .resSrcFail c => .onDec c (DecUnit.handOver .srcFail)

/-- A read attempt that does not stop writes what the attempt on the unit alone answers. -/
theorem State.attempt_eq_next_iff {s t : State} {c : Codec} {f : DecUnit → DecUnit} :
    s.attempt c f = .next t ↔ ∃ d, (s.dec c).attempt f = .next d ∧ t = s.setDec c d := by
  unfold State.attempt
  cases (s.dec c).attempt f <;> simp [eq_comm]

/-- A step of a unit writes that unit and nothing else. -/
theorem UnitAction.next_cases {u : UnitName} {g : State → Answer State} (hg : UnitAction u g) {s t : State}
    (h : g s = .next t) :
    (∃ c e, u = .enc c ∧ t = s.setEnc c e) ∨ (∃ c d, u = .dec c ∧ t = s.setDec c d) := by
  cases hg with
  | onEnc c f => cases h; exact .inl ⟨c, _, rfl, rfl⟩
  | onDec c f => cases h; exact .inr ⟨c, _, rfl, rfl⟩
  | attempt c f =>
    obtain ⟨d, -, rfl⟩ := State.attempt_eq_next_iff.mp h
    exact .inr ⟨c, d, rfl, rfl⟩

/-- The frame of a step: the three other units, the agenda and the free-value counter. -/
theorem UnitAction.frame {u : UnitName} {g : State → Answer State} (hg : UnitAction u g) {s t : State}
    (h : g s = .next t) :
    (∀ v : UnitName, v ≠ u → sameUnit v s t) ∧ t.agenda = s.agenda ∧ t.freeIdx = s.freeIdx := by
  rcases hg.next_cases h with ⟨c, e, rfl, rfl⟩ | ⟨c, d, rfl, rfl⟩
  · exact ⟨fun _ hv => sameUnit_setEnc hv s e, State.setEnc_agenda s c e, State.setEnc_freeIdx s c e⟩
  · exact ⟨fun _ hv => sameUnit_setDec hv s d, State.setDec_agenda s c d, State.setDec_freeIdx s c d⟩

/-- A step reads its own unit only: from two states with the same unit `u` it leaves the same unit `u`. -/
theorem UnitAction.reads_own_unit {u : UnitName} {g : State → Answer State} (hg : UnitAction u g) {s s' t : State}
    (hs : sameUnit u s s') (h : g s = .next t) : ∃ t', g s' = .next t' ∧ sameUnit u t t' := by
  cases hg with
  | onEnc c f =>
    rw [sameUnit_enc] at hs
    cases h
    exact ⟨_, rfl, by simp [hs]⟩
  | onDec c f =>
    rw [sameUnit_dec] at hs
    cases h
    exact ⟨_, rfl, by simp [hs]⟩
  | attempt c f =>
    rw [sameUnit_dec] at hs
    obtain ⟨d, hd, rfl⟩ := State.attempt_eq_next_iff.mp h
    exact ⟨s'.setDec c d, State.attempt_eq_next_iff.mpr ⟨d, by rw [hs, hd], rfl⟩, by simp⟩

/-- In a decoder that meets R35 every read attempt is within the rules' range of `cnt`. -/
theorem State.Inv.cnt_le {s : State} (hs : s.Inv) (c : Codec) (hr : (s.dec c).st = .reading) :
    (s.dec c).cnt.toNat ≤ 10 := by
  obtain ⟨⟨-, hu, -⟩, ⟨-, hd, -⟩⟩ := hs
  cases c with
  | unsigned => exact hu hr
  | signed => exact hd hr

/-- In a state that meets R35 no step of a unit stops. -/
theorem UnitAction.completes {u : UnitName} {g : State → Answer State} (hg : UnitAction u g) {s : State}
    (hs : s.Inv) : ∃ t, g s = .next t := by
  cases hg with
  | onEnc c f => exact ⟨_, rfl⟩
  | onDec c f => exact ⟨_, rfl⟩
  | attempt c f =>
    by_cases hr : (s.dec c).st = .reading
    · exact ⟨_, State.attempt_reading f hr (hs.cnt_le c hr)⟩
    · exact ⟨_, State.attempt_not_reading f hr⟩

/-! ### Transfers as steps of their units -/

theorem runWord_eq_exec {w : PortWord} {i : Instr} (h : decode w = .ok i) (s : State) : runWord w s = exec i s := by
  simp only [runWord, h]

/-- A word that is no instruction is refused in every state, so a transfer that completes decodes. -/
theorem decode_of_runWord_next {w : PortWord} {s t : State} (h : runWord w s = .next t) :
    ∃ i, decode w = .ok i ∧ exec i s = .next t := by
  cases hd : decode w with
  | ok i => exact ⟨i, rfl, runWord_eq_exec hd s ▸ h⟩
  | error e => simp only [runWord, hd] at h; cases h

/-- A word that decodes is a step of the unit of its port. -/
theorem runWord_unitAction {w : PortWord} {i : Instr} (h : decode w = .ok i) :
    UnitAction (unitOfWord w) (runWord w) := by
  rw [← unitOf_decode h, funext (runWord_eq_exec h)]
  exact exec_unitAction i

theorem unitAction_of_runWord_next {w : PortWord} {s t : State} (h : runWord w s = .next t) :
    UnitAction (unitOfWord w) (runWord w) := by
  obtain ⟨i, hi, -⟩ := decode_of_runWord_next h
  exact runWord_unitAction hi

/-- A run of transfers that completes begins with a transfer that completes. -/
theorem runWords_cons_eq_next_iff {w : PortWord} {ws : List PortWord} {s t : State} :
    runWords (w :: ws) s = .next t ↔ ∃ r, runWord w s = .next r ∧ runWords ws r = .next t := by
  simp only [runWords]
  cases runWord w s <;> simp

/-- The frame of several transfers: the units none of them belongs to, and the agenda. -/
theorem runWords_frame {l : List PortWord} {s t : State} (h : runWords l s = .next t) :
    (∀ u : UnitName, (∀ w ∈ l, unitOfWord w ≠ u) → sameUnit u s t) ∧ t.agenda = s.agenda := by
  induction l generalizing s with
  | nil => cases h; exact ⟨fun u _ => sameUnit_refl u _, rfl⟩
  | cons w ws ih =>
    obtain ⟨r, hw, hws⟩ := runWords_cons_eq_next_iff.mp h
    obtain ⟨hunits, hagenda, -⟩ := (unitAction_of_runWord_next hw).frame hw
    obtain ⟨ihunits, ihagenda⟩ := ih hws
    refine ⟨fun u hu => ?_, ihagenda.trans hagenda⟩
    rw [List.forall_mem_cons] at hu
    exact sameUnit_trans (hunits u hu.1.symm) (ihunits u hu.2)

/-- Transfers of different units do not see each other: each leaves its unit as it would alone. -/
theorem runWords_each {l : List PortWord} (hl : (l.map unitOfWord).Nodup) {s t : State}
    (h : runWords l s = .next t) :
    ∀ w ∈ l, ∃ r, runWord w s = .next r ∧ sameUnit (unitOfWord w) r t := by
  induction l generalizing s with
  | nil => simp
  | cons v vs ih =>
    obtain ⟨q, hv, hvs⟩ := runWords_cons_eq_next_iff.mp h
    rw [List.map_cons, List.nodup_cons] at hl
    obtain ⟨hnew, hrest⟩ := hl
    have hne : ∀ w ∈ vs, unitOfWord w ≠ unitOfWord v := fun w hw he => hnew (he ▸ List.mem_map_of_mem hw)
    rw [List.forall_mem_cons]
    refine ⟨⟨q, hv, (runWords_frame hvs).1 _ hne⟩, fun w hw => ?_⟩
    obtain ⟨r, hr, hrt⟩ := ih hrest hvs w hw
    have hsq : sameUnit (unitOfWord w) s q := ((unitAction_of_runWord_next hv).frame hv).1 _ (hne w hw)
    obtain ⟨r', hr', hrr'⟩ := (unitAction_of_runWord_next hr).reads_own_unit (sameUnit_symm hsq) hr
    exact ⟨r', hr', sameUnit_trans (sameUnit_symm hrr') hrt⟩

/-- Transfers of different units complete together when each of them completes alone. -/
theorem runWords_completes {l : List PortWord} (hl : (l.map unitOfWord).Nodup) {s : State}
    (h : ∀ w ∈ l, ∃ r, runWord w s = .next r) : ∃ t, runWords l s = .next t := by
  induction l generalizing s with
  | nil => exact ⟨s, rfl⟩
  | cons v vs ih =>
    rw [List.forall_mem_cons] at h
    obtain ⟨⟨q, hv⟩, hvs⟩ := h
    rw [List.map_cons, List.nodup_cons] at hl
    obtain ⟨hnew, hrest⟩ := hl
    have hq : ∀ w ∈ vs, ∃ r, runWord w q = .next r := fun w hw => by
      obtain ⟨r, hr⟩ := hvs w hw
      have hne : unitOfWord w ≠ unitOfWord v := fun he => hnew (he ▸ List.mem_map_of_mem hw)
      have hsq : sameUnit (unitOfWord w) s q := ((unitAction_of_runWord_next hv).frame hv).1 _ hne
      obtain ⟨r', hr', -⟩ := (unitAction_of_runWord_next hr).reads_own_unit hsq hr
      exact ⟨r', hr'⟩
    obtain ⟨t, ht⟩ := ih hrest hq
    exact ⟨t, runWords_cons_eq_next_iff.mpr ⟨q, hv, ht⟩⟩

/-- Settles O49: every instruction is a step of its own unit, which writes nothing else. -/
theorem unitsAreIsolated : Obligations.UnitsAreIsolated :=
  fun i _ _ h => (exec_unitAction i).frame h

end Sys2Proof.Machine
end

section
/-! SUPPORT. The handshakes of one edge: which words it transfers, and that they belong to different units. -/

namespace Sys2Proof.Machine

open Sys2Proof

/-! ### The command port -/

/-- The unit is in IDLE. -/
def State.unitIdle (s : State) : UnitName → Prop
  | .encu => s.encu.st = .idle
  | .decu => s.decu.st = .idle
  | .encs => s.encs.st = .idle
  | .decs => s.decs.st = .idle

theorem op_cases : ∀ op : BitVec 2, op = 0#2 ∨ op = 1#2 ∨ op = 2#2 ∨ op = 3#2 := by decide

/-- Bit `u` of `cmd_ready` is the readiness of the unit of operation code `u` (10_state.md R29). -/
theorem cmdReady_getLsbD (s : State) :
    s.cmdReady.getLsbD 0 = s.encu.ready ∧ s.cmdReady.getLsbD 1 = s.decu.ready ∧
    s.cmdReady.getLsbD 2 = s.encs.ready ∧ s.cmdReady.getLsbD 3 = s.decs.ready := by
  simp only [State.cmdReady, BitVec.getLsbD_append]
  simp

/-- The operation code of a command word selects the unit that has to be in IDLE (30_encoding.md R91,
42_command_and_result.md R170). -/
theorem opReady_iff_unitIdle (s : State) (op : BitVec 2) (val : Word) :
    s.opReady op = true ↔ s.unitIdle (unitOfWord (.command (commandWord op val))) := by
  obtain ⟨h0, h1, h2, h3⟩ := cmdReady_getLsbD s
  rw [Laws.EncodesOnOwnPort.of_command]
  rcases op_cases op with rfl | rfl | rfl | rfl
  · exact (Bool.eq_iff_iff.mp h0).trans beq_iff_eq
  · exact (Bool.eq_iff_iff.mp h1).trans beq_iff_eq
  · exact (Bool.eq_iff_iff.mp h2).trans beq_iff_eq
  · exact (Bool.eq_iff_iff.mp h3).trans beq_iff_eq

/-- `cmd_ready` at an operation code, code by code (30_encoding.md R91). -/
theorem opReady_iff (s : State) (op : BitVec 2) :
    s.opReady op = true ↔
      (op = 0#2 ∧ s.encu.st = .idle) ∨ (op = 1#2 ∧ s.decu.st = .idle) ∨
      (op = 2#2 ∧ s.encs.st = .idle) ∨ (op = 3#2 ∧ s.decs.st = .idle) := by
  rw [opReady_iff_unitIdle s op 0#64, Laws.EncodesOnOwnPort.of_command]
  rcases op_cases op with rfl | rfl | rfl | rfl <;> simp [State.unitIdle]

/-! ### What an edge transfers, port by port -/

theorem exists_codec {P : Codec → Prop} : (∃ c, P c) ↔ P .unsigned ∨ P .signed := by
  constructor
  · rintro ⟨c, h⟩
    cases c with
    | unsigned => exact .inl h
    | signed => exact .inr h
  · exact fun h => h.elim (⟨_, ·⟩) (⟨_, ·⟩)

theorem mem_transfers (s : State) (inp : Inputs) (w : PortWord) :
    w ∈ s.transfers inp ↔
      (inp.cmdValid = true ∧ s.opReady inp.cmdOp = true ∧ w = .command (commandWord inp.cmdOp inp.cmdVal)) ∨
      (∃ c, w ∈ State.transfers.outTransfer s inp c) ∨ (∃ c, w ∈ State.transfers.srcTransfer s inp c) ∨
      (∃ c, w ∈ State.transfers.resTransfer s inp c) := by
  simp only [exists_codec, State.transfers, List.mem_append, List.mem_ite_nil_right, Bool.and_eq_true,
    List.mem_singleton]
  tauto

/-- The status on a result port, by `st` and `kind` (10_state.md R32, 30_encoding.md R95). -/
theorem offers_status_iff (d : DecUnit) (c : Codec) (w : PortWord) :
    (∃ r, d.offer? = some r ∧ w = .status c r.status.code) ↔
      (d.st = .done ∧ w = .status c 0#2) ∨ (d.st = .failed ∧ d.kind = .overflow ∧ w = .status c 1#2) ∨
      (d.st = .failed ∧ d.kind = .ioError ∧ w = .status c 2#2) := by
  rcases d.offer?_cases with ⟨hst | hst, ho⟩ | ⟨hst, ho⟩ | ⟨hst, hk, ho⟩ | ⟨hst, hk, ho⟩ <;>
    simp [*, Status.code]

/-- Every word that an edge transfers is an instruction: a status code 3 is never offered (30_encoding.md R95). -/
theorem decode_of_mem_transfers {s : State} {inp : Inputs} {w : PortWord} (h : w ∈ s.transfers inp) :
    ∃ i, decode w = .ok i := by
  rw [mem_transfers] at h
  rcases h with ⟨-, -, rfl⟩ | ⟨c, h⟩ | ⟨c, h⟩ | ⟨c, h⟩
  · exact ⟨_, rfl⟩
  · obtain ⟨-, -, rfl⟩ := (mem_outTransfer s inp c w).mp h
    exact ⟨_, rfl⟩
  · obtain ⟨-, -, rfl⟩ := (mem_srcTransfer s inp c w).mp h
    cases c <;> exact ⟨_, rfl⟩
  · obtain ⟨-, r, -, rfl⟩ := (mem_resTransfer s inp c w).mp h
    cases r.status <;> exact ⟨_, rfl⟩

/-! ### One transfer per unit -/

/-- The ports with a handshake (10_state.md R28). -/
inductive Port where
  | command
  | output (c : Codec)
  | source (c : Codec)
  | result (c : Codec)
  deriving DecidableEq

/-- The ports of the block, in the order in which an edge is read. -/
def Port.all : List Port :=
  [.command, .output .unsigned, .output .signed, .source .unsigned, .source .signed, .result .unsigned, .result .signed]

theorem Port.all_nodup : Port.all.Nodup := by decide

/-- The port a word is on. -/
def portOf : PortWord → Port
  | .command _ => .command
  | .outByte c _ => .output c
  | .inByte c _ => .source c
  | .outcome c _ _ _ => .source c
  | .status c _ => .result c

@[simp] theorem portOf_srcWord (inp : Inputs) (c : Codec) : portOf (inp.srcWord c) = .source c := by
  cases c <;> rfl

@[simp] theorem unitOfWord_srcWord (inp : Inputs) (c : Codec) : unitOfWord (inp.srcWord c) = .dec c := by
  cases c <;> rfl

/-- The port at which an encoder is open (10_state.md R29, R30). -/
def EncUnit.openAt (c : Codec) (e : EncUnit) : Port :=
  match e.st with
  | .idle => .command
  | .emit => .output c

/-- The port at which a decoder is open (10_state.md R29, R31, R32). -/
def DecUnit.openAt (c : Codec) (d : DecUnit) : Port :=
  match d.st with
  | .idle => .command
  | .reading => .source c
  | .done => .result c
  | .failed => .result c

/-- The port at which a unit is open: exactly one at any time (10_state.md R35 g). -/
def State.openAt (s : State) : UnitName → Port
  | .encu => s.encu.openAt .unsigned
  | .decu => s.decu.openAt .unsigned
  | .encs => s.encs.openAt .signed
  | .decs => s.decs.openAt .signed

theorem openAt_enc (s : State) (c : Codec) : s.openAt (.enc c) = (s.enc c).openAt c := by
  cases c <;> rfl

theorem openAt_dec (s : State) (c : Codec) : s.openAt (.dec c) = (s.dec c).openAt c := by
  cases c <;> rfl

theorem openAt_of_unitIdle {s : State} {u : UnitName} (h : s.unitIdle u) : s.openAt u = .command := by
  cases u <;> simp only [State.unitIdle] at h <;> simp only [State.openAt, EncUnit.openAt, DecUnit.openAt, h]

/-- A word is transferred only on the port at which its unit is open. -/
theorem portOf_of_mem_transfers {s : State} {inp : Inputs} {w : PortWord} (h : w ∈ s.transfers inp) :
    portOf w = s.openAt (unitOfWord w) := by
  rw [mem_transfers] at h
  rcases h with ⟨-, hready, rfl⟩ | ⟨c, hw⟩ | ⟨c, hw⟩ | ⟨c, hw⟩
  · exact (openAt_of_unitIdle ((opReady_iff_unitIdle s _ _).mp hready)).symm
  · obtain ⟨-, hst, rfl⟩ := (mem_outTransfer s inp c w).mp hw
    simp [portOf, unitOfWord, openAt_enc, EncUnit.openAt, hst]
  · obtain ⟨-, hst, rfl⟩ := (mem_srcTransfer s inp c w).mp hw
    simp [openAt_dec, DecUnit.openAt, hst]
  · obtain ⟨-, hoffer⟩ := (mem_resTransfer s inp c w).mp hw
    rcases (offers_status_iff _ c w).mp hoffer with ⟨hst, rfl⟩ | ⟨hst, -, rfl⟩ | ⟨hst, -, rfl⟩ <;>
      simp [portOf, unitOfWord, openAt_dec, DecUnit.openAt, hst]

/-- An output port transfers at most one word. -/
theorem outTransfer_ports (s : State) (inp : Inputs) (c : Codec) :
    List.Sublist ((State.transfers.outTransfer s inp c).map portOf) [.output c] := by
  unfold State.transfers.outTransfer
  cases (s.enc c).offer? c <;> cases inp.outReady c <;> simp [portOf]

/-- A source port transfers at most one word. -/
theorem srcTransfer_ports (s : State) (inp : Inputs) (c : Codec) :
    List.Sublist ((State.transfers.srcTransfer s inp c).map portOf) [.source c] := by
  unfold State.transfers.srcTransfer
  cases (s.dec c).srcReady <;> cases inp.srcValid c <;> simp

/-- A result port transfers at most one word. -/
theorem resTransfer_ports (s : State) (inp : Inputs) (c : Codec) :
    List.Sublist ((State.transfers.resTransfer s inp c).map portOf) [.result c] := by
  unfold State.transfers.resTransfer
  cases (s.dec c).offer? <;> cases inp.resReady c <;> simp [portOf]

/-- An edge transfers at most one word on each port (10_state.md R28). -/
theorem transfers_ports (s : State) (inp : Inputs) : List.Sublist ((s.transfers inp).map portOf) Port.all := by
  have hcmd : List.Sublist ((if inp.cmdValid && s.opReady inp.cmdOp then
      [PortWord.command (commandWord inp.cmdOp inp.cmdVal)] else []).map portOf) [.command] := by
    split <;> simp [portOf]
  simp only [State.transfers, List.map_append]
  exact (((((hcmd.append (outTransfer_ports s inp .unsigned)).append (outTransfer_ports s inp .signed)).append
    (srcTransfer_ports s inp .unsigned)).append (srcTransfer_ports s inp .signed)).append
    (resTransfer_ports s inp .unsigned)).append (resTransfer_ports s inp .signed)

/-- An edge transfers at most one word for each unit, since a unit is open at one port only
(42_command_and_result.md R183). -/
theorem transfers_units_nodup (s : State) (inp : Inputs) : ((s.transfers inp).map unitOfWord).Nodup := by
  have hports := List.pairwise_map.mp ((transfers_ports s inp).nodup Port.all_nodup)
  refine List.pairwise_map.mpr (hports.imp_of_mem fun {v w} hv hw hne hunit => hne ?_)
  rw [portOf_of_mem_transfers hv, portOf_of_mem_transfers hw, hunit]

/-! ### The edge -/

/-- After an edge without reset the move is used up, each unit with a transfer is as its own instruction, run on the
state before the edge, leaves it, and each other unit is as it was (42_command_and_result.md R183). -/
theorem edge_runs_each_transfer {s t : State} {inp : Inputs} {rest : List Stimulus}
    (hs : s.agenda = .edge inp :: rest) (hrst : inp.rst = false) (h : step s = .next t) :
    t.agenda = rest ∧
    (∀ w ∈ s.transfers inp, ∃ i r, decode w = .ok i ∧ exec i s = .next r ∧ sameUnit (unitOf i) r t) ∧
    (∀ u : UnitName, (∀ w ∈ s.transfers inp, unitOfWord w ≠ u) → sameUnit u s t) := by
  rw [step_edge hs hrst] at h
  obtain ⟨hunits, hagenda⟩ := runWords_frame h
  refine ⟨hagenda, fun w hw => ?_, fun u hu => sameUnit_trans (sameUnit_setAgenda u s rest) (hunits u hu)⟩
  obtain ⟨r, hr, hrt⟩ := runWords_each (transfers_units_nodup s inp) h w hw
  obtain ⟨i, hi, hir⟩ := decode_of_runWord_next hr
  rw [← unitOf_decode hi] at hrt
  obtain ⟨r', hr', hrr'⟩ :=
    (exec_unitAction i).reads_own_unit (sameUnit_symm (sameUnit_setAgenda (unitOf i) s rest)) hir
  exact ⟨i, r', hi, hr', sameUnit_trans (sameUnit_symm hrr') hrt⟩

/-- In a state that meets R35 an edge without reset completes. -/
theorem edge_completes {s : State} {inp : Inputs} {rest : List Stimulus} (hs : s.agenda = .edge inp :: rest)
    (hrst : inp.rst = false) (hinv : s.Inv) : ∃ t, step s = .next t := by
  rw [step_edge hs hrst]
  refine runWords_completes (transfers_units_nodup s inp) fun w hw => ?_
  obtain ⟨i, hi⟩ := decode_of_mem_transfers hw
  exact (runWord_unitAction hi).completes (s := s.setAgenda rest) hinv

/-- Settles O10: the transfers of an edge belong to different units, and a step reads and writes its own unit only. -/
theorem edgeRunsItsTransfer : Obligations.EdgeRunsItsTransfer := by
  refine ⟨fun s inp w => ?handshakes, fun _ _ _ _ => edge_runs_each_transfer, fun _ _ _ => edge_completes,
    fun s inp rest hs hrst => ⟨fun w i hone hi => ?single, fun hnone => ?quiet⟩⟩
  case handshakes =>
    simp only [mem_transfers, exists_codec, opReady_iff, mem_outTransfer, mem_srcTransfer, mem_resTransfer,
      offers_status_iff, Inputs.outReady, Inputs.srcValid, Inputs.srcWord, Inputs.resReady, State.enc_unsigned,
      State.enc_signed, State.dec_unsigned, State.dec_signed, or_assoc, and_comm]
  case single => rw [step_edge hs hrst, hone, runWords_one, runWord_eq_exec hi]
  case quiet => rw [step_edge hs hrst, hnone, runWords]

end Sys2Proof.Machine
end

section
/-! SUPPORT. A transfer as the next move, and the arithmetic of the shifts. -/

namespace Sys2Proof.Machine

open Sys2Proof

@[simp] theorem payload_getElem_six (b : Byte) : (payload b)[6] = signFlag b := by
  simp [payload, signFlag]

/-- The decoder answers well-formed instructions only: it looks at bit 6 before it names a signed terminator
(30_encoding.md R98). -/
theorem wellFormed_of_decode {w : PortWord} {i : Instr} (h : decode w = .ok i) : i.wellFormed = true := by
  cases w with
  | command w =>
    simp only [decode, decodeCommand, Except.ok.injEq] at h
    split at h <;> subst h <;> rfl
  | outByte c b =>
    simp only [decode, decodeOutByte, Except.ok.injEq] at h
    split at h <;> subst h <;> rfl
  | inByte c b =>
    simp only [decode, decodeInByte, Except.ok.injEq] at h
    split at h <;> subst h <;> simp [Instr.wellFormed, *]
  | outcome c k b x =>
    simp only [decode, decodeOutcome, Except.ok.injEq] at h
    split at h <;> subst h <;> rfl
  | status c k =>
    simp only [decode, decodeStatus] at h
    split at h <;> cases h <;> rfl

/-- A step at a transfer runs the instruction of its word. -/
theorem step_transfer {s : State} {w : PortWord} {rest : List Stimulus} {i : Instr}
    (hs : s.agenda = .transfer w :: rest) (hw : decode w = .ok i) : step s = exec i (s.setAgenda rest) := by
  simp only [step, hs, runStimulus, runWord_eq_exec hw]

/-- A number that the table reads as an instruction is a word that decodes to it. -/
theorem decodeTableWord_eq_some_iff {nbits w : Nat} {i : Instr} :
    decodeTableWord nbits w = some i ↔ ∃ pw, tableWord nbits w = some pw ∧ decode pw = .ok i := by
  unfold decodeTableWord
  cases tableWord nbits w with
  | none => simp
  | some pw => cases hd : decode pw <;> simp [hd]

/-- Settles O9: the decoder answers well-formed instructions only, and a transfer runs what its word decodes to. -/
theorem stepRunsDecodedInstruction : Obligations.StepRunsDecodedInstruction :=
  fun _ _ _ _ hs hw => ⟨wellFormed_of_decode hw, step_transfer hs hw⟩

/-- Settles O8: the placed word stands first in the agenda, before the moves that were there. -/
theorem placedWordRunsNext : Obligations.PlacedWordRunsNext := by
  intro s nbits w i h
  obtain ⟨pw, hpw, hi⟩ := decodeTableWord_eq_some_iff.mp h
  have hplaced : (s.withFetchWord nbits w).agenda = .transfer pw :: s.agenda := by
    simp only [State.withFetchWord, hpw, State.withWord, State.setAgenda_agenda]
  exact step_transfer hplaced hi

theorem lsr64_toNat (v : Word) (n : Nat) : (lsr64 v n).toNat = v.toNat / 2 ^ n := by
  rw [lsr64, BitVec.toNat_ushiftRight, Nat.shiftRight_eq_div_pow]

theorem asr64_toInt (v : Word) (n : Nat) : (asr64 v n).toInt = v.toInt / 2 ^ n := by
  rw [asr64, BitVec.toInt_sshiftRight, Int.shiftRight_eq_div_pow]
  norm_cast

theorem shl64_toNat (v : Word) (n : Nat) : (shl64 v n).toNat = v.toNat * 2 ^ n % 2 ^ 64 := by
  rw [shl64, BitVec.toNat_shiftLeft, Nat.shiftLeft_eq]

/-- `ones_from(n)` is what is left of `2^64` above bit `n` (00_scope.md R11). -/
theorem onesFrom_toNat {n : Nat} (h : n < 64) : (onesFrom n).toNat = 2 ^ 64 - 2 ^ n := by
  have hpos : 0 < 2 ^ n := Nat.two_pow_pos n
  have hle : 2 ^ n ≤ 2 ^ 64 := Nat.pow_le_pow_right (by decide) h.le
  calc (onesFrom n).toNat = (2 ^ 64 - 1) * 2 ^ n % 2 ^ 64 := by
        rw [onesFrom, shl64_toNat, BitVec.toNat_allOnes]
    _ = (2 ^ 64 - 2 ^ n + 2 ^ 64 * (2 ^ n - 1)) % 2 ^ 64 := by congr 1; omega
    _ = 2 ^ 64 - 2 ^ n := by rw [Nat.add_mul_mod_self_left, Nat.mod_eq_of_lt (by omega)]

/-- Settles O60, one operation at a time. -/
theorem shiftsAreArithmetic : Obligations.ShiftsAreArithmetic := by
  intro v n
  refine ⟨lsr64_toNat v n, asr64_toInt v n, shl64_toNat v n, shl64_eq_zero, ?_⟩
  split
  case isTrue h => exact onesFrom_toNat h
  case isFalse h => rw [onesFrom_eq_zero (Nat.le_of_not_lt h)]; rfl

end Sys2Proof.Machine
end

section
/-! SUPPORT. What the ports of a unit show, by its `st` (10_state.md R29 to R32). -/

namespace Sys2Proof.Machine

open Sys2Proof

theorem EncUnit.ready_iff (e : EncUnit) : e.ready = true ↔ e.st = .idle := beq_iff_eq

theorem DecUnit.ready_iff (d : DecUnit) : d.ready = true ↔ d.st = .idle := beq_iff_eq

theorem EncUnit.offer?_of_idle {c : Codec} {e : EncUnit} (h : e.st = .idle) : e.offer? c = none := by
  simp [EncUnit.offer?, h]

theorem DecUnit.offer?_of_idle {d : DecUnit} (h : d.st = .idle) : d.offer? = none := by
  simp [DecUnit.offer?, DecUnit.status?, h]

theorem DecUnit.offer?_of_reading {d : DecUnit} (h : d.st = .reading) : d.offer? = none := by
  simp [DecUnit.offer?, DecUnit.status?, h]

theorem DecUnit.offer?_of_done {d : DecUnit} (h : d.st = .done) : d.offer? = some ⟨d.acc, .ok, d.cause⟩ := by
  simp [DecUnit.offer?, DecUnit.status?, h]

theorem DecUnit.offer?_of_overflow {d : DecUnit} (h : d.st = .failed) (hk : d.kind = .overflow) :
    d.offer? = some ⟨d.acc, .overflow, d.cause⟩ := by
  simp [DecUnit.offer?, DecUnit.status?, h, hk]

theorem DecUnit.offer?_of_ioError {d : DecUnit} (h : d.st = .failed) (hk : d.kind = .ioError) :
    d.offer? = some ⟨d.acc, .srcFail, d.cause⟩ := by
  simp [DecUnit.offer?, DecUnit.status?, h, hk]

/-- The code 3 stands for no status (30_encoding.md R95). -/
theorem Status.code_ne_three (status : Status) : status.code ≠ 3#2 := by
  cases status <;> decide

/-- A result that is not OK is offered in FAILED only (10_state.md R32). -/
theorem DecUnit.failed_of_offer? {d : DecUnit} {r : DecResult} (h : d.offer? = some r) (hr : r.status ≠ .ok) :
    d.st = .failed ∧ r.value = d.acc := by
  rcases d.offer?_cases with ⟨-, ho⟩ | ⟨-, ho⟩ | ⟨hst, -, ho⟩ | ⟨hst, -, ho⟩ <;>
    rw [ho] at h <;> cases h
  · exact absurd rfl hr
  · exact ⟨hst, rfl⟩
  · exact ⟨hst, rfl⟩

/-- Settles O58: every output is read off `st`, which is IDLE in each unit. -/
theorem resetState : Obligations.ResetState :=
  ⟨rfl, rfl, rfl, rfl, rfl⟩

/-- Settles O59: the ready and valid outputs of a unit are its `st`, value by value. -/
theorem exactlyOneHandshakeOpen : Obligations.ExactlyOneHandshakeOpen := by
  intro s
  obtain ⟨h0, h1, h2, h3⟩ := cmdReady_getLsbD s
  refine ⟨?_, ?_, ?_, ?_, fun c => ?encoder, fun c => ?decoder⟩
  · rw [h0, EncUnit.ready_iff]
  · rw [h1, DecUnit.ready_iff]
  · rw [h2, EncUnit.ready_iff]
  · rw [h3, DecUnit.ready_iff]
  case encoder => cases h : (s.enc c).st <;> simp [EncUnit.ready, EncUnit.offer?, h]
  case decoder =>
    rcases (s.dec c).offer?_cases with ⟨h | h, ho⟩ | ⟨h, ho⟩ | ⟨h, -, ho⟩ | ⟨h, -, ho⟩ <;>
      simp [DecUnit.ready, DecUnit.srcReady, h, ho]

end Sys2Proof.Machine
end

section
/-! SUPPORT. The invariants of 10_state.md R35: what they say by `st`, and that every rule of a decoder keeps them. -/

namespace Sys2Proof.Machine

open Sys2Proof

/-! ### The invariants of R35, by `st` -/

/-- R35, for both decoders at once. -/
theorem State.inv_iff (s : State) : s.Inv ↔ ∀ c, (s.dec c).Inv c :=
  ⟨fun h c => by cases c with
    | unsigned => exact h.1
    | signed => exact h.2,
   fun h => ⟨h .unsigned, h .signed⟩⟩

/-- In IDLE the registers are free. -/
theorem DecUnit.inv_of_idle {c : Codec} {d : DecUnit} (h : d.st = .idle) : d.Inv c := by
  simp [DecUnit.Inv, h]

/-- In READING: `cnt` within the rules' range, no cause, and `acc` fits in the groups read. -/
theorem DecUnit.inv_iff_of_reading {c : Codec} {d : DecUnit} (h : d.st = .reading) :
    d.Inv c ↔ d.cnt.toNat ≤ 10 ∧ d.cause = 0#_ ∧ d.acc.toNat < 2 ^ (groupW * d.cnt.toNat) := by
  simp [DecUnit.Inv, h]
  omega

/-- In DONE: no cause, and `acc` fits in the groups read unless a terminating byte extended its sign. -/
theorem DecUnit.inv_iff_of_done {c : Codec} {d : DecUnit} (h : d.st = .done) :
    d.Inv c ↔ d.cnt.toNat ≤ 11 ∧ d.cause = 0#_ ∧
      (d.acc.toNat < 2 ^ (groupW * d.cnt.toNat) ∨ (c = .signed ∧ d.endedNegative = true)) := by
  simp [DecUnit.Inv, h]

/-- In FAILED: the value is zero, and Overflow is the eleventh byte without a cause. -/
theorem DecUnit.inv_iff_of_failed {c : Codec} {d : DecUnit} (h : d.st = .failed) :
    d.Inv c ↔ d.cnt.toNat ≤ 11 ∧ d.acc = 0#64 ∧ (d.kind = .overflow → d.cnt.toNat = 11 ∧ d.cause = 0#_) := by
  simp [DecUnit.Inv, h]
  tauto

/-! ### One more group of the value -/

/-- Group `i` ends below bit `7 * (i + 1)` (30_encoding.md R82). -/
theorem groupAt_toNat_lt (p : Payload) (i : Nat) : (groupAt p i).toNat < 2 ^ (groupW * (i + 1)) :=
  calc (groupAt p i).toNat = (p.setWidth 64).toNat * 2 ^ (groupW * i) % 2 ^ 64 := by
        rw [groupAt, shl64_toNat]
    _ ≤ (p.setWidth 64).toNat * 2 ^ (groupW * i) := Nat.mod_le _ _
    _ = p.toNat * 2 ^ (groupW * i) := by rw [BitVec.toNat_setWidth_of_le (by decide)]
    _ < 2 ^ 7 * 2 ^ (groupW * i) := Nat.mul_lt_mul_of_pos_right p.isLt (Nat.two_pow_pos _)
    _ = 2 ^ (groupW * (i + 1)) := by rw [← Nat.pow_add, Nat.mul_succ, Nat.add_comm]

/-- A payload that joins a value of `cnt` groups makes one of `cnt + 1` groups (40_unsigned_codec.md R121). -/
theorem DecUnit.gather_toNat_lt {d : DecUnit} (h : d.acc.toNat < 2 ^ (groupW * d.cnt.toNat)) (p : Payload) :
    (d.gather p).toNat < 2 ^ (groupW * (d.cnt.toNat + 1)) := by
  have hacc : d.acc.toNat < 2 ^ (groupW * (d.cnt.toNat + 1)) :=
    h.trans_le (Nat.pow_le_pow_right (by decide) (Nat.mul_le_mul_left _ (Nat.le_succ _)))
  rw [DecUnit.gather, BitVec.toNat_or]
  exact Nat.or_lt_two_pow hacc (groupAt_toNat_lt p _)

/-- A consumed byte joins the bytes of the running operation (20_memory.md R66). -/
theorem DecUnit.opBytes_consume (b : Byte) {d : DecUnit} (h : d.cnt.toNat ≤ 10) :
    (d.consume b).opBytes = d.opBytes ++ [b] := by
  have hlen : (d.taken ++ [b]).length - (d.cnt + 1#4).toNat = d.taken.length - d.cnt.toNat := by
    rw [cnt_succ_toNat h, List.length_append, List.length_singleton, Nat.add_sub_add_right]
  simp only [DecUnit.opBytes, DecUnit.consume, hlen]
  exact List.drop_append_of_le_length (Nat.sub_le _ _)

/-! ### The invariants are kept -/

theorem DecUnit.Inv.accept {c : Codec} {d : DecUnit} (h : d.Inv c) : d.accept.Inv c := by
  rcases d.accept_cases with ⟨-, ha⟩ | ⟨-, ha⟩ <;> rw [ha]
  · exact (DecUnit.inv_iff_of_reading rfl).mpr ⟨by simp, rfl, by simp⟩
  · exact h

theorem DecUnit.Inv.readCont {c : Codec} {d : DecUnit} (h : d.Inv c) (hr : d.st = .reading) (p : Payload) :
    (d.readCont p).Inv c := by
  obtain ⟨hcnt, hcause, hacc⟩ := (DecUnit.inv_iff_of_reading hr).mp h
  have hsucc := cnt_succ_toNat hcnt
  rcases d.readCont_cases p with ⟨hc, hd⟩ | ⟨hc, hd⟩ <;> rw [hd]
  · refine (DecUnit.inv_iff_of_reading (by exact hr)).mpr ?_
    rw [hsucc]
    exact ⟨by omega, hcause, DecUnit.gather_toNat_lt hacc p⟩
  · rw [DecUnit.inv_iff_of_failed rfl, hsucc]
    exact ⟨by omega, rfl, fun _ => ⟨by omega, rfl⟩⟩

theorem DecUnit.Inv.readTerm {c : Codec} {d : DecUnit} (h : d.Inv c) (hr : d.st = .reading) (p : Payload) :
    (d.readTerm p).Inv c := by
  obtain ⟨hcnt, hcause, hacc⟩ := (DecUnit.inv_iff_of_reading hr).mp h
  have hsucc : (d.readTerm p).cnt.toNat = d.cnt.toNat + 1 := cnt_succ_toNat hcnt
  rw [DecUnit.inv_iff_of_done rfl, hsucc]
  exact ⟨by omega, hcause, .inl (DecUnit.gather_toNat_lt hacc p)⟩

/-- A signed terminator is the last byte consumed, so `acc` may hold the ones of its sign (41_signed_codec.md R152). -/
theorem DecUnit.Inv.readTermSigned {d : DecUnit} (h : d.Inv .signed) (hr : d.st = .reading) {p : Payload}
    (hp : p.getLsbD 6 = true) : (d.readTermSigned p).Inv .signed := by
  obtain ⟨hcnt, hcause, -⟩ := (DecUnit.inv_iff_of_reading hr).mp h
  have hsucc : (d.readTermSigned p).cnt.toNat = d.cnt.toNat + 1 := cnt_succ_toNat hcnt
  have hbytes : (d.readTermSigned p).opBytes = d.opBytes ++ [mkByte false p] := DecUnit.opBytes_consume _ hcnt
  have hneg : (d.readTermSigned p).endedNegative = true := by
    simp only [DecUnit.endedNegative, hbytes, List.getLast?_concat, contFlag_mkByte, signFlag_mkByte, hp]
    rfl
  rw [DecUnit.inv_iff_of_done rfl, hsucc]
  exact ⟨by omega, hcause, .inr ⟨rfl, hneg⟩⟩

theorem DecUnit.Inv.readByte {c : Codec} {d : DecUnit} (h : d.Inv c) (hr : d.st = .reading) (b : Byte) :
    (d.readByte c b).Inv c := by
  rcases d.readByte_cases c b with ⟨-, hd⟩ | ⟨-, -, hd⟩ | ⟨-, rfl, hs, hd⟩ <;> rw [hd]
  · exact h.readCont hr _
  · exact h.readTerm hr _
  · exact h.readTermSigned hr (by simpa using hs)

theorem DecUnit.Inv.endOfInput {c : Codec} {d : DecUnit} (h : d.Inv c) (hr : d.st = .reading) :
    d.endOfInput.Inv c := by
  obtain ⟨hcnt, hcause, hacc⟩ := (DecUnit.inv_iff_of_reading hr).mp h
  exact (DecUnit.inv_iff_of_done rfl).mpr ⟨hcnt.trans (by decide), hcause, .inl hacc⟩

theorem DecUnit.Inv.raiseSourceFailure {c : Codec} {d : DecUnit} (h : d.Inv c) (hr : d.st = .reading) (k : Cause) :
    (d.raiseSourceFailure k).Inv c := by
  obtain ⟨hcnt, -, -⟩ := (DecUnit.inv_iff_of_reading hr).mp h
  exact (DecUnit.inv_iff_of_failed rfl).mpr ⟨hcnt.trans (by decide), rfl, nofun⟩

theorem DecUnit.Inv.handOver {c : Codec} {d : DecUnit} (h : d.Inv c) (status : Status) :
    (d.handOver status).Inv c := by
  rcases d.handOver_cases status with ⟨r, -, -, hd⟩ | ⟨-, hd⟩ <;> rw [hd]
  · exact DecUnit.inv_of_idle rfl
  · exact h

/-- Whatever one transfer does to a decoder, it keeps R35. -/
theorem DecMove.inv {c : Codec} {d e : DecUnit} (hm : DecMove c d e) (h : d.Inv c) : e.Inv c := by
  cases hm with
  | same => exact h
  | accept => exact h.accept
  | byte b hr _ => exact h.readByte hr b
  | eof hr _ => exact h.endOfInput hr
  | err k hr _ => exact h.raiseSourceFailure hr k
  | handOver status => exact h.handOver status

/-- A reset edge puts both decoders in IDLE, where R35 asks nothing. -/
theorem State.resetUnits_inv (s : State) : s.resetUnits.Inv :=
  ⟨DecUnit.inv_of_idle rfl, DecUnit.inv_of_idle rfl⟩

/-- Settles O51: each transfer moves a decoder by a rule that keeps R35, and a reset edge makes it IDLE. -/
theorem stepKeepsDecoderInvariant : Obligations.StepKeepsDecoderInvariant := by
  intro s t hs hst
  refine step_keeps (P := State.Inv) (fun _ _ h => h) (fun s _ => s.resetUnits_inv) (fun w s t hw h => ?_) hst hs
  rw [State.inv_iff] at h ⊢
  exact fun c => (runWord_move hw c).2.inv (h c)

/-- Settles O52: both decoders are in IDLE. -/
theorem resetMeetsDecoderInvariant : Obligations.ResetMeetsDecoderInvariant :=
  ⟨⟨DecUnit.inv_of_idle rfl, DecUnit.inv_of_idle rfl⟩, fun h => absurd rfl h, fun h => absurd rfl h⟩

/-- Settles O43, port by `st` and `kind`; a status that is not OK means FAILED, where R35 (c) makes `acc` zero. -/
theorem offeredResult : Obligations.OfferedResult := by
  refine ⟨⟨rfl, rfl, rfl, fun _ r _ => r.status.code_ne_three⟩, fun d => ⟨?none, DecUnit.offer?_of_done,
    DecUnit.offer?_of_overflow, DecUnit.offer?_of_ioError⟩, fun s c r hs ho hr => ?zero, fun _ => ⟨rfl, rfl⟩⟩
  case none => exact fun h => h.elim DecUnit.offer?_of_idle DecUnit.offer?_of_reading
  case zero =>
    obtain ⟨hst, hvalue⟩ := DecUnit.failed_of_offer? ho hr
    obtain ⟨-, hacc, -⟩ := (DecUnit.inv_iff_of_failed hst).mp ((State.inv_iff s).mp hs c)
    exact hvalue.trans hacc

end Sys2Proof.Machine
end

section
/-! SUPPORT. States that differ in working registers of IDLE units only (10_state.md R36): no port shows the difference
and no rule reads it. -/

namespace Sys2Proof.Machine

open Sys2Proof

/-! ### Units that agree -/

/-- Encoders that agree are the same outside IDLE. -/
theorem EncUnit.Agrees.eq_or_idle {e f : EncUnit} (h : e.Agrees f) : e = f ∨ e.st = .idle ∧ f.st = .idle := by
  obtain ⟨hst, hout, hrem⟩ := h
  by_cases hi : e.st = .idle
  · exact .inr ⟨hi, hst ▸ hi⟩
  · cases e
    cases f
    exact .inl ((EncUnit.mk.injEq ..).mpr ⟨hst, hrem hi, hout⟩)

/-- Decoders that agree are the same outside IDLE. -/
theorem DecUnit.Agrees.eq_or_idle {d f : DecUnit} (h : d.Agrees f) : d = f ∨ d.st = .idle ∧ f.st = .idle := by
  obtain ⟨hst, htaken, hresults, hregs⟩ := h
  by_cases hi : d.st = .idle
  · exact .inr ⟨hi, hst ▸ hi⟩
  · obtain ⟨hacc, hcnt, hkind, hcause⟩ := hregs hi
    cases d
    cases f
    exact .inl ((DecUnit.mk.injEq ..).mpr ⟨hst, hacc, hcnt, hkind, hcause, htaken, hresults⟩)

theorem EncUnit.Agrees.refl (e : EncUnit) : e.Agrees e := ⟨rfl, rfl, fun _ => rfl⟩

theorem DecUnit.Agrees.refl (d : DecUnit) : d.Agrees d := ⟨rfl, rfl, rfl, fun _ => ⟨rfl, rfl, rfl, rfl⟩⟩

/-- Encoders in IDLE agree when their streams do. -/
theorem EncUnit.Agrees.of_idle {e f : EncUnit} (he : e.st = .idle) (hf : f.st = .idle) (hout : e.out = f.out) :
    e.Agrees f :=
  ⟨he.trans hf.symm, hout, fun h => absurd he h⟩

/-- Decoders in IDLE agree when their streams do. -/
theorem DecUnit.Agrees.of_idle {d f : DecUnit} (hd : d.st = .idle) (hf : f.st = .idle) (htaken : d.taken = f.taken)
    (hresults : d.results = f.results) : d.Agrees f :=
  ⟨hd.trans hf.symm, htaken, hresults, fun h => absurd hd h⟩

/-! ### What a unit does -/

/-- An acceptance writes every working register of an encoder (42_command_and_result.md R171). -/
theorem EncUnit.accept_of_idle {e : EncUnit} (h : e.st = .idle) (val : Word) :
    e.accept val = { st := .emit, rem := val, out := e.out } := by
  simp [EncUnit.accept, h]

/-- An acceptance writes every working register of a decoder (42_command_and_result.md R172). -/
theorem DecUnit.accept_of_idle {d : DecUnit} (h : d.st = .idle) :
    d.accept = { st := .reading, acc := 0#64, cnt := 0#4, kind := .overflow, cause := 0#_,
                 taken := d.taken, results := d.results } := by
  simp [DecUnit.accept, h]

theorem EncUnit.emitByte_of_idle {e : EncUnit} (h : e.st = .idle) (c : Codec) (b : Byte) : e.emitByte c b = e := by
  simp [EncUnit.emitByte, h]

theorem DecUnit.handOver_of_idle {d : DecUnit} (h : d.st = .idle) (status : Status) : d.handOver status = d := by
  simp [DecUnit.handOver, DecUnit.offer?_of_idle h]

theorem EncUnit.Agrees.accept_eq {e f : EncUnit} (h : e.Agrees f) (val : Word) : e.accept val = f.accept val := by
  rcases h.eq_or_idle with rfl | ⟨he, hf⟩
  · rfl
  · obtain ⟨-, hout, -⟩ := h
    rw [EncUnit.accept_of_idle he, EncUnit.accept_of_idle hf, hout]

theorem DecUnit.Agrees.accept_eq {d f : DecUnit} (h : d.Agrees f) : d.accept = f.accept := by
  rcases h.eq_or_idle with rfl | ⟨hd, hf⟩
  · rfl
  · obtain ⟨-, htaken, hresults, -⟩ := h
    rw [DecUnit.accept_of_idle hd, DecUnit.accept_of_idle hf, htaken, hresults]

theorem EncUnit.Agrees.accept {e f : EncUnit} (h : e.Agrees f) (val : Word) : (e.accept val).Agrees (f.accept val) :=
  h.accept_eq val ▸ .refl _

theorem DecUnit.Agrees.accept {d f : DecUnit} (h : d.Agrees f) : d.accept.Agrees f.accept :=
  h.accept_eq ▸ .refl _

theorem EncUnit.Agrees.emitByte {e f : EncUnit} (h : e.Agrees f) (c : Codec) (b : Byte) :
    (e.emitByte c b).Agrees (f.emitByte c b) := by
  rcases h.eq_or_idle with rfl | ⟨he, hf⟩
  · exact .refl _
  · rwa [EncUnit.emitByte_of_idle he, EncUnit.emitByte_of_idle hf]

theorem DecUnit.Agrees.handOver {d f : DecUnit} (h : d.Agrees f) (status : Status) :
    (d.handOver status).Agrees (f.handOver status) := by
  rcases h.eq_or_idle with rfl | ⟨hd, hf⟩
  · exact .refl _
  · rwa [DecUnit.handOver_of_idle hd, DecUnit.handOver_of_idle hf]

/-! ### States that agree -/

theorem State.Agrees.enc {s t : State} (h : s.Agrees t) (c : Codec) : (s.enc c).Agrees (t.enc c) := by
  obtain ⟨hencu, -, hencs, -, -⟩ := h
  cases c with
  | unsigned => exact hencu
  | signed => exact hencs

theorem State.Agrees.dec {s t : State} (h : s.Agrees t) (c : Codec) : (s.dec c).Agrees (t.dec c) := by
  obtain ⟨-, hdecu, -, hdecs, -⟩ := h
  cases c with
  | unsigned => exact hdecu
  | signed => exact hdecs

theorem State.Agrees.agenda {s t : State} (h : s.Agrees t) : s.agenda = t.agenda := by
  obtain ⟨-, -, -, -, hagenda⟩ := h
  exact hagenda

theorem State.Agrees.setAgenda {s t : State} (h : s.Agrees t) (a : List Stimulus) :
    (s.setAgenda a).Agrees (t.setAgenda a) := by
  obtain ⟨hencu, hdecu, hencs, hdecs, -⟩ := h
  exact ⟨hencu, hdecu, hencs, hdecs, rfl⟩

theorem State.Agrees.setEnc {s t : State} (h : s.Agrees t) (c : Codec) {e f : EncUnit} (he : e.Agrees f) :
    (s.setEnc c e).Agrees (t.setEnc c f) := by
  obtain ⟨hencu, hdecu, hencs, hdecs, hagenda⟩ := h
  cases c with
  | unsigned => exact ⟨he, hdecu, hencs, hdecs, hagenda⟩
  | signed => exact ⟨hencu, hdecu, he, hdecs, hagenda⟩

theorem State.Agrees.setDec {s t : State} (h : s.Agrees t) (c : Codec) {d f : DecUnit} (hd : d.Agrees f) :
    (s.setDec c d).Agrees (t.setDec c f) := by
  obtain ⟨hencu, hdecu, hencs, hdecs, hagenda⟩ := h
  cases c with
  | unsigned => exact ⟨hencu, hd, hencs, hdecs, hagenda⟩
  | signed => exact ⟨hencu, hdecu, hencs, hd, hagenda⟩

/-- A reset edge leaves four IDLE units, whatever free values it uses up (70_reset_and_hazards.md R220). -/
theorem State.Agrees.resetUnits {s t : State} (h : s.Agrees t) : s.resetUnits.Agrees t.resetUnits := by
  obtain ⟨⟨-, hencu, -⟩, ⟨-, htu, hru, -⟩, ⟨-, hencs, -⟩, ⟨-, hts, hrs, -⟩, hagenda⟩ := h
  exact ⟨.of_idle rfl rfl hencu, .of_idle rfl rfl htu hru, .of_idle rfl rfl hencs,
    .of_idle rfl rfl hts hrs, hagenda⟩

/-! ### What an edge transfers -/

theorem EncUnit.Agrees.offer?_eq {e f : EncUnit} (h : e.Agrees f) (c : Codec) : e.offer? c = f.offer? c := by
  rcases h.eq_or_idle with rfl | ⟨he, hf⟩
  · rfl
  · rw [EncUnit.offer?_of_idle he, EncUnit.offer?_of_idle hf]

theorem DecUnit.Agrees.offer?_eq {d f : DecUnit} (h : d.Agrees f) : d.offer? = f.offer? := by
  rcases h.eq_or_idle with rfl | ⟨hd, hf⟩
  · rfl
  · rw [DecUnit.offer?_of_idle hd, DecUnit.offer?_of_idle hf]

theorem DecUnit.Agrees.srcReady_eq {d f : DecUnit} (h : d.Agrees f) : d.srcReady = f.srcReady := by
  obtain ⟨hst, -⟩ := h
  rw [DecUnit.srcReady, DecUnit.srcReady, hst]

theorem State.Agrees.opReady_eq {s t : State} (h : s.Agrees t) (op : BitVec 2) : s.opReady op = t.opReady op := by
  obtain ⟨⟨hencu, -⟩, ⟨hdecu, -⟩, ⟨hencs, -⟩, ⟨hdecs, -⟩, -⟩ := h
  rw [Bool.eq_iff_iff, opReady_iff, opReady_iff, hencu, hdecu, hencs, hdecs]

/-- At an edge, states that agree transfer the same words: every handshake is a function of the ports
(10_state.md R28). -/
theorem State.Agrees.transfers_eq {s t : State} (h : s.Agrees t) (inp : Inputs) :
    s.transfers inp = t.transfers inp := by
  have hout (c : Codec) : State.transfers.outTransfer s inp c = State.transfers.outTransfer t inp c := by
    rw [State.transfers.outTransfer, (h.enc c).offer?_eq]; rfl
  have hsrc (c : Codec) : State.transfers.srcTransfer s inp c = State.transfers.srcTransfer t inp c := by
    rw [State.transfers.srcTransfer, (h.dec c).srcReady_eq]; rfl
  have hres (c : Codec) : State.transfers.resTransfer s inp c = State.transfers.resTransfer t inp c := by
    rw [State.transfers.resTransfer, (h.dec c).offer?_eq]; rfl
  simp only [State.transfers, h.opReady_eq, hout, hsrc, hres]

/-! ### Answers that agree -/

theorem answersAgree_cases {a b : Answer State} (h : answersAgree a b) :
    (∃ s t, a = .next s ∧ b = .next t ∧ s.Agrees t) ∨ (∃ r, a = .fault r ∧ b = .fault r) ∨
    (∃ r, a = .refused r ∧ b = .refused r) := by
  unfold answersAgree at h
  split at h
  · exact .inl ⟨_, _, rfl, rfl, h⟩
  · exact .inr (.inl ⟨_, rfl, congrArg _ h.symm⟩)
  · exact .inr (.inr ⟨_, rfl, congrArg _ h.symm⟩)
  · exact h.elim

theorem State.Agrees.onEnc {s t : State} (h : s.Agrees t) (c : Codec) {g : EncUnit → EncUnit}
    (hg : ∀ e f : EncUnit, e.Agrees f → (g e).Agrees (g f)) : answersAgree (s.onEnc c g) (t.onEnc c g) :=
  h.setEnc c (hg _ _ (h.enc c))

theorem State.Agrees.onDec {s t : State} (h : s.Agrees t) (c : Codec) {g : DecUnit → DecUnit}
    (hg : ∀ d f : DecUnit, d.Agrees f → (g d).Agrees (g f)) : answersAgree (s.onDec c g) (t.onDec c g) :=
  h.setDec c (hg _ _ (h.dec c))

/-- A read attempt reads registers in READING only, where decoders that agree are the same (20_memory.md R54). -/
theorem State.Agrees.attempt {s t : State} (h : s.Agrees t) (c : Codec) (g : DecUnit → DecUnit) :
    answersAgree (s.attempt c g) (t.attempt c g) := by
  rcases (h.dec c).eq_or_idle with heq | ⟨hs, ht⟩
  · simp only [State.attempt, heq]
    cases (t.dec c).attempt g with
    | next d => exact h.setDec c (.refl d)
    | fault r => exact rfl
    | refused r => exact rfl
  · rw [State.attempt_not_reading g (by rw [hs]; decide), State.attempt_not_reading g (by rw [ht]; decide)]
    exact h

/-- No instruction reads a working register in IDLE (10_state.md R36). -/
theorem State.Agrees.exec {s t : State} (h : s.Agrees t) : ∀ i : Instr, answersAgree (exec i s) (exec i t)
  | .encu val => h.onEnc .unsigned fun _ _ he => he.accept val
  | .decu _ => h.onDec .unsigned fun _ _ hd => hd.accept
  | .encs val => h.onEnc .signed fun _ _ he => he.accept val
  | .decs _ => h.onDec .signed fun _ _ hd => hd.accept
  | .decuCont p => h.attempt .unsigned (DecUnit.readCont p)
  | .decuTerm p => h.attempt .unsigned (DecUnit.readTerm p)
  | .decsCont p => h.attempt .signed (DecUnit.readCont p)
  | .decsTermPos p => h.attempt .signed (DecUnit.readTerm p)
  | .decsTermNeg p => h.attempt .signed (DecUnit.readTermSigned p)
  | .encuOutCont p => h.onEnc .unsigned fun _ _ he => he.emitByte .unsigned (mkByte true p)
  | .encuOutLast p => h.onEnc .unsigned fun _ _ he => he.emitByte .unsigned (mkByte false p)
  | .encsOutCont p => h.onEnc .signed fun _ _ he => he.emitByte .signed (mkByte true p)
  | .encsOutLast p => h.onEnc .signed fun _ _ he => he.emitByte .signed (mkByte false p)
  | .srcByte c b => h.attempt c (DecUnit.readByte c b)
  | .srcEof c => h.attempt c DecUnit.endOfInput
  | .srcErr c k => h.attempt c (DecUnit.raiseSourceFailure k)
  | .srcErrAlias c k => h.attempt c (DecUnit.raiseSourceFailure k)
  | .resOk c => h.onDec c fun _ _ hd => hd.handOver .ok
  | .resOverflow c => h.onDec c fun _ _ hd => hd.handOver .overflow
  | .resSrcFail c => h.onDec c fun _ _ hd => hd.handOver .srcFail

theorem State.Agrees.runWord {s t : State} (h : s.Agrees t) (w : PortWord) :
    answersAgree (runWord w s) (runWord w t) := by
  cases hd : decode w with
  | ok i =>
    rw [runWord_eq_exec hd, runWord_eq_exec hd]
    exact h.exec i
  | error e =>
    simp only [Machine.runWord, hd]
    exact rfl

theorem State.Agrees.runWords {s t : State} (h : s.Agrees t) (l : List PortWord) :
    answersAgree (runWords l s) (runWords l t) := by
  induction l generalizing s t with
  | nil => exact h
  | cons w ws ih =>
    rcases answersAgree_cases (h.runWord w) with ⟨s', t', hs, ht, h'⟩ | ⟨r, hs, ht⟩ | ⟨r, hs, ht⟩ <;>
      simp only [Machine.runWords, hs, ht]
    · exact ih h'
    · exact rfl
    · exact rfl

theorem State.Agrees.runStimulus {s t : State} (h : s.Agrees t) (m : Stimulus) :
    answersAgree (runStimulus m s) (runStimulus m t) := by
  cases m with
  | transfer w => exact h.runWord w
  | edge inp =>
    simp only [Machine.runStimulus, clockEdge, h.transfers_eq inp]
    split
    · exact h.resetUnits
    · exact h.runWords _

theorem State.Agrees.step {s t : State} (h : s.Agrees t) : answersAgree (step s) (step t) := by
  cases ha : t.agenda with
  | nil =>
    simp only [Machine.step, h.agenda, ha]
    exact h
  | cons m rest =>
    simp only [Machine.step, h.agenda, ha]
    exact (h.setAgenda rest).runStimulus m

theorem State.Agrees.runSteps {s t : State} (h : s.Agrees t) (n : Nat) :
    answersAgree (runSteps n s) (runSteps n t) := by
  induction n generalizing s t with
  | zero => exact h
  | succ n ih =>
    rcases answersAgree_cases h.step with ⟨s', t', hs, ht, h'⟩ | ⟨r, hs, ht⟩ | ⟨r, hs, ht⟩ <;>
      simp only [Machine.runSteps, hs, ht]
    · exact ih h'
    · exact rfl
    · exact rfl

/-- Settles O54: agreement is kept by every step, because no rule reads a register of an IDLE unit before an acceptance
has written it. -/
theorem idleRegistersDoNotMatter : Obligations.IdleRegistersDoNotMatter :=
  ⟨fun _ _ val _ h => h.accept_eq val, fun _ _ _ h => h.accept_eq, fun n _ _ h => h.runSteps n⟩

end Sys2Proof.Machine
end

section
/-! SUPPORT. Units that wait: an edge moves a unit only when the other half of the handshake is there at the one port
at which the unit is open (20_memory.md R55, R56; 42_command_and_result.md R174). -/

namespace Sys2Proof.Machine

open Sys2Proof

/-- The other side's half of the handshake of a port, on the wires of an edge (10_state.md R28). -/
def Inputs.offersAt (inp : Inputs) : Port → Bool
  | .command => inp.cmdValid
  | .output c => inp.outReady c
  | .source c => inp.srcValid c
  | .result c => inp.resReady c

theorem Inputs.quiet_offersAt (p : Port) : Inputs.quiet.offersAt p = false := by
  cases p with
  | command => rfl
  | output c => cases c <;> rfl
  | source c => cases c <;> rfl
  | result c => cases c <;> rfl

/-- A word is transferred only where the other side offers its half. -/
theorem offersAt_portOf_of_mem_transfers {s : State} {inp : Inputs} {w : PortWord} (h : w ∈ s.transfers inp) :
    inp.offersAt (portOf w) = true := by
  rw [mem_transfers] at h
  rcases h with ⟨hvalid, -, rfl⟩ | ⟨c, hw⟩ | ⟨c, hw⟩ | ⟨c, hw⟩
  · exact hvalid
  · obtain ⟨hready, -, rfl⟩ := (mem_outTransfer s inp c w).mp hw
    exact hready
  · obtain ⟨hvalid, -, rfl⟩ := (mem_srcTransfer s inp c w).mp hw
    rwa [portOf_srcWord]
  · obtain ⟨hready, r, -, rfl⟩ := (mem_resTransfer s inp c w).mp hw
    exact hready

/-- A unit at whose open port nothing is offered has no transfer. -/
theorem unitOfWord_ne_of_not_offered {s : State} {inp : Inputs} {u : UnitName}
    (hu : inp.offersAt (s.openAt u) = false) : ∀ w ∈ s.transfers inp, unitOfWord w ≠ u := by
  rintro w hw rfl
  have hoffer := offersAt_portOf_of_mem_transfers hw
  rw [portOf_of_mem_transfers hw, hu] at hoffer
  exact Bool.false_ne_true hoffer

/-- A unit at whose open port nothing is offered keeps every register, whatever the other wires of the edge say. -/
theorem sameUnit_of_not_offered {s t : State} {inp : Inputs} {rest : List Stimulus} {u : UnitName}
    (hs : s.agenda = .edge inp :: rest) (hrst : inp.rst = false) (hu : inp.offersAt (s.openAt u) = false)
    (h : step s = .next t) : sameUnit u s t := by
  obtain ⟨-, -, hframe⟩ := edge_runs_each_transfer hs hrst h
  exact hframe u (unitOfWord_ne_of_not_offered hu)

/-- An edge without reset that offers nothing at any open port only uses up its move. -/
theorem step_of_nothing_offered {s : State} {inp : Inputs} {rest : List Stimulus}
    (hs : s.agenda = .edge inp :: rest) (hrst : inp.rst = false) (hu : ∀ u, inp.offersAt (s.openAt u) = false) :
    step s = .next (s.setAgenda rest) := by
  have hnone : s.transfers inp = [] :=
    List.eq_nil_iff_forall_not_mem.mpr fun w hw => unitOfWord_ne_of_not_offered (hu _) w hw rfl
  rw [step_edge hs hrst, hnone, runWords]

/-- Settles O41: a decoder in READING is open at its source port only, and there nothing is offered. -/
theorem silentSourceBlocks : Obligations.SilentSourceBlocks := by
  intro c s t inp rest hst hs hrst hsrc h
  have hopen : s.openAt (.dec c) = .source c := by simp only [openAt_dec, DecUnit.openAt, hst]
  exact (sameUnit_dec c s t).mp (sameUnit_of_not_offered hs hrst (hopen ▸ hsrc) h)

end Sys2Proof.Machine
end

section
/-! SUPPORT. Transfers that cannot take place: a read attempt outside READING (20_memory.md R54), and a byte or a result
that is not the one offered (log 8). -/

namespace Sys2Proof.Machine

open Sys2Proof

/-! ### Read attempts -/

/-- Every read instruction is a read attempt of the decoder it belongs to (20_memory.md R53). -/
theorem exec_eq_attempt_of_isRead {i : Instr} (h : isRead i = true) :
    ∃ c f, unitOf i = .dec c ∧ ∀ s, exec i s = s.attempt c f := by
  cases i with
  | decuCont p => exact ⟨.unsigned, DecUnit.readCont p, rfl, fun _ => rfl⟩
  | decuTerm p => exact ⟨.unsigned, DecUnit.readTerm p, rfl, fun _ => rfl⟩
  | decsCont p => exact ⟨.signed, DecUnit.readCont p, rfl, fun _ => rfl⟩
  | decsTermPos p => exact ⟨.signed, DecUnit.readTerm p, rfl, fun _ => rfl⟩
  | decsTermNeg p => exact ⟨.signed, DecUnit.readTermSigned p, rfl, fun _ => rfl⟩
  | srcByte c b => exact ⟨c, DecUnit.readByte c b, rfl, fun _ => rfl⟩
  | srcEof c => exact ⟨c, DecUnit.endOfInput, rfl, fun _ => rfl⟩
  | srcErr c k => exact ⟨c, DecUnit.raiseSourceFailure k, rfl, fun _ => rfl⟩
  | srcErrAlias c k => exact ⟨c, DecUnit.raiseSourceFailure k, rfl, fun _ => rfl⟩
  | _ => exact absurd h Bool.false_ne_true

theorem UnitName.dec_inj : ∀ {c c' : Codec}, UnitName.dec c = .dec c' → c = c'
  | .unsigned, .unsigned, _ => rfl
  | .signed, .signed, _ => rfl

/-- Outside READING a read instruction changes nothing. -/
theorem exec_read_of_not_reading {i : Instr} (hi : isRead i = true) {s : State} {c : Codec}
    (hc : unitOf i = .dec c) (hst : (s.dec c).st ≠ .reading) : exec i s = .next s := by
  obtain ⟨c', f, hc', hexec⟩ := exec_eq_attempt_of_isRead hi
  obtain rfl := UnitName.dec_inj (hc'.symm.trans hc)
  rw [hexec, State.attempt_not_reading f hst]

theorem DecUnit.srcReady_iff (d : DecUnit) : d.srcReady = true ↔ d.st = .reading := beq_iff_eq

/-- Settles O40: `src_ready` is READING, and a read attempt outside it is no step. -/
theorem readsOnlyInReading : Obligations.ReadsOnlyInReading :=
  ⟨fun s => ⟨s.decu.srcReady_iff, s.decs.srcReady_iff⟩, fun _ _ hi =>
    ⟨exec_read_of_not_reading hi (c := .unsigned), exec_read_of_not_reading hi (c := .signed)⟩⟩

/-! ### Bytes and results that are not offered -/

theorem State.onEnc_eq_self {s : State} {c : Codec} {f : EncUnit → EncUnit} (h : f (s.enc c) = s.enc c) :
    s.onEnc c f = .next s := by
  rw [State.onEnc, h, State.setEnc_enc]

theorem State.onDec_eq_self {s : State} {c : Codec} {f : DecUnit → DecUnit} (h : f (s.dec c) = s.dec c) :
    s.onDec c f = .next s := by
  rw [State.onDec, h, State.setDec_dec]

/-- A byte that the encoder does not present stays where it is. -/
theorem EncUnit.emitByte_of_not_presented {c : Codec} {b : Byte} {e : EncUnit}
    (h : e.st = .idle ∨ nextByte c e.rem ≠ b) : e.emitByte c b = e := by
  rcases e.emitByte_cases c b with ⟨hst, hb, -⟩ | ⟨-, he⟩
  · rcases h with hidle | hne
    · rw [hst] at hidle
      cases hidle
    · exact absurd hb hne
  · exact he

theorem DecUnit.status?_of_offer? {d : DecUnit} {r : DecResult} (h : d.offer? = some r) :
    d.status? = some r.status := by
  obtain ⟨status, hs, rfl⟩ := Option.map_eq_some_iff.mp h
  exact hs

/-- A result of a status that the decoder does not show stays where it is. -/
theorem DecUnit.handOver_of_status_ne {status : Status} {d : DecUnit} (h : d.status? ≠ some status) :
    d.handOver status = d := by
  rcases d.handOver_cases status with ⟨r, hr, hs, -⟩ | ⟨-, hd⟩
  · exact absurd (hs ▸ DecUnit.status?_of_offer? hr) h
  · exact hd

/-- Settles O20: the hand-over of a byte or of a result leaves the unit as it is unless it is the one offered. -/
theorem unofferedTransferChangesNothing : Obligations.UnofferedTransferChangesNothing :=
  ⟨fun _ _ h => State.onEnc_eq_self (c := .unsigned) (EncUnit.emitByte_of_not_presented h),
    fun _ _ h => State.onEnc_eq_self (c := .unsigned) (EncUnit.emitByte_of_not_presented h),
    fun _ _ h => State.onEnc_eq_self (c := .signed) (EncUnit.emitByte_of_not_presented h),
    fun _ _ h => State.onEnc_eq_self (c := .signed) (EncUnit.emitByte_of_not_presented h),
    fun _ _ h => State.onDec_eq_self (DecUnit.handOver_of_status_ne h),
    fun _ _ h => State.onDec_eq_self (DecUnit.handOver_of_status_ne h),
    fun _ _ h => State.onDec_eq_self (DecUnit.handOver_of_status_ne h)⟩

end Sys2Proof.Machine
end

section
/-! SUPPORT. The end of a run (42_command_and_result.md R178): all four units in IDLE and no command offered. -/

namespace Sys2Proof.Machine

open Sys2Proof

/-- The host offers no command: the next move has `cmd_valid = 0` and is no word on the command port (log 17). -/
theorem State.commandOffered_eq_false_iff (s : State) :
    s.commandOffered = false ↔
      (∀ inp rest, s.agenda = .edge inp :: rest → inp.cmdValid = false) ∧
      (∀ w rest, s.agenda ≠ .transfer (.command w) :: rest) := by
  unfold State.commandOffered
  cases s.agenda with
  | nil => simp
  | cons m rest =>
    cases m with
    | edge inp => simp [Stimulus.offersCommand]
    | transfer w => cases w <;> simp [Stimulus.offersCommand]

theorem State.forall_unitIdle_iff (s : State) :
    (∀ u, s.unitIdle u) ↔
      s.encu.st = .idle ∧ s.decu.st = .idle ∧ s.encs.st = .idle ∧ s.decs.st = .idle := by
  constructor
  · exact fun h => ⟨h .encu, h .decu, h .encs, h .decs⟩
  · rintro ⟨hencu, hdecu, hencs, hdecs⟩ u
    cases u <;> assumption

theorem State.finished_iff (s : State) :
    s.finished = true ↔ (∀ u, s.unitIdle u) ∧ s.commandOffered = false := by
  simp only [State.finished, Bool.and_eq_true, Bool.not_eq_true', EncUnit.ready_iff, DecUnit.ready_iff,
    State.forall_unitIdle_iff, and_assoc]

theorem State.unitIdle_enc {s : State} {c : Codec} : s.unitIdle (.enc c) ↔ (s.enc c).st = .idle := by
  cases c <;> rfl

theorem State.unitIdle_dec {s : State} {c : Codec} : s.unitIdle (.dec c) ↔ (s.dec c).st = .idle := by
  cases c <;> rfl

/-- The byte classes of an encoder are its hand-over of the byte (30_encoding.md R80). -/
theorem exec_outByte (c : Codec) (b : Byte) (s : State) :
    exec (decodeOutByte c b) s = s.onEnc c (EncUnit.emitByte c b) := by
  conv_rhs => rw [← mkByte_fields b]
  unfold decodeOutByte
  cases c <;> cases contFlag b <;> rfl

theorem isRead_decodeOutcome (c : Codec) (kind : BitVec 2) (b : Byte) (k : Cause) :
    isRead (decodeOutcome c kind b k) = true := by
  unfold decodeOutcome
  split <;> rfl

/-- With all units in IDLE only a command is a step: no unit presents a byte, reads one or offers a result. -/
theorem exec_of_all_idle {s : State} (hidle : ∀ u, s.unitIdle u) {w : PortWord} {i : Instr} (hi : decode w = .ok i)
    (hw : ∀ cmd, w ≠ .command cmd) : exec i s = .next s := by
  have henc (c : Codec) : (s.enc c).st = .idle := State.unitIdle_enc.mp (hidle _)
  have hdec (c : Codec) : (s.dec c).st = .idle := State.unitIdle_dec.mp (hidle _)
  have hread (c : Codec) : (s.dec c).st ≠ .reading := by rw [hdec c]; decide
  cases w with
  | command cmd => exact absurd rfl (hw cmd)
  | outByte c b =>
    cases hi
    rw [exec_outByte, State.onEnc_eq_self (EncUnit.emitByte_of_idle (henc c) c b)]
  | inByte c b =>
    cases hi
    rw [exec_inByte, State.attempt_not_reading _ (hread c)]
  | outcome c kind b k =>
    have hunit := unitOf_decode hi
    cases hi
    exact exec_read_of_not_reading (isRead_decodeOutcome c kind b k) hunit (hread c)
  | status c code =>
    have hover (status : Status) : s.onDec c (DecUnit.handOver status) = .next s :=
      State.onDec_eq_self (DecUnit.handOver_of_idle (hdec c) status)
    simp only [decode, decodeStatus] at hi
    split at hi <;> cases hi <;> exact hover _

/-- Settles O11: a wire that is low completes no handshake, and units in IDLE are open at the command port only. -/
theorem quietEnvironmentChangesNothing : Obligations.QuietEnvironmentChangesNothing := by
  refine ⟨fun s hs => ?no_move, fun s rest hs => ?quiet, fun s => ?finished, fun s inp rest hfin hs hrst => ?edge,
    fun s w i rest hfin hs hi => ?transfer⟩
  case no_move => simp only [step, hs]
  case quiet => exact step_of_nothing_offered hs rfl fun u => Inputs.quiet_offersAt _
  case finished =>
    simp only [State.finished_iff, State.forall_unitIdle_iff, State.commandOffered_eq_false_iff, and_assoc]
  case edge =>
    obtain ⟨hidle, hcmd⟩ := s.finished_iff.mp hfin
    obtain ⟨hvalid, -⟩ := s.commandOffered_eq_false_iff.mp hcmd
    refine step_of_nothing_offered hs hrst fun u => ?_
    rw [openAt_of_unitIdle (hidle u)]
    exact hvalid inp rest hs
  case transfer =>
    obtain ⟨hidle, hcmd⟩ := s.finished_iff.mp hfin
    obtain ⟨-, hword⟩ := s.commandOffered_eq_false_iff.mp hcmd
    rw [step_transfer hs hi]
    refine exec_of_all_idle (s := s.setAgenda rest) hidle hi fun cmd hw => ?_
    exact hword cmd rest (hw ▸ hs)

end Sys2Proof.Machine
end

section
/-! SUPPORT. A consumed byte by its class, and how the streams grow (20_memory.md R51, R56, R60, R66). -/

namespace Sys2Proof.Machine

open Sys2Proof

/-! ### A consumed byte -/

/-- A byte of either class is counted once and recorded as it is; no result is handed over (20_memory.md R60). -/
theorem DecUnit.readByte_streams (c : Codec) (b : Byte) (d : DecUnit) :
    (d.readByte c b).taken = d.taken ++ [b] ∧ (d.readByte c b).results = d.results ∧
    (d.readByte c b).cnt = d.cnt + 1#4 := by
  have hb := mkByte_fields b
  rcases d.readByte_cases c b with ⟨hk, hd⟩ | ⟨hk, -, hd⟩ | ⟨hk, -, -, hd⟩ <;> rw [hk] at hb <;> rw [hd]
  · rcases d.readCont_cases (payload b) with ⟨-, hd⟩ | ⟨-, hd⟩ <;> simp only [hd, hb, and_self]
  · simp only [DecUnit.readTerm, DecUnit.consume, hb, and_self]
  · simp only [DecUnit.readTermSigned, DecUnit.consume, hb, and_self]

/-- A terminating byte ends the operation, at any count (40_unsigned_codec.md R122, 41_signed_codec.md R152). -/
theorem DecUnit.readByte_st_of_term {c : Codec} {b : Byte} (h : contFlag b = false) (d : DecUnit) :
    (d.readByte c b).st = .done := by
  rcases d.readByte_cases c b with ⟨hk, -⟩ | ⟨-, -, hd⟩ | ⟨-, -, -, hd⟩
  · rw [h] at hk
    cases hk
  · rw [hd, DecUnit.readTerm]
  · rw [hd, DecUnit.readTermSigned]

/-- A continuation byte leaves the operation running within the budget; the eleventh is Overflow
(40_unsigned_codec.md R121, R123; 41_signed_codec.md R151, R153). -/
theorem DecUnit.readByte_st_of_cont {c : Codec} {b : Byte} (h : contFlag b = true) (d : DecUnit) :
    (d.cnt.toNat ≤ 9 → (d.readByte c b).st = d.st) ∧
    (d.cnt.toNat = 10 → (d.readByte c b).st = .failed ∧ (d.readByte c b).kind = .overflow) := by
  have hd : d.readByte c b = d.readCont (payload b) := by simp only [DecUnit.readByte, h]
  rcases d.readCont_cases (payload b) with ⟨hc, hcont⟩ | ⟨hc, hcont⟩ <;> rw [hd, hcont]
  · exact ⟨fun _ => rfl, fun hc' => by omega⟩
  · exact ⟨fun hc' => by omega, fun _ => ⟨rfl, rfl⟩⟩

/-- Settles O37: `BYTE(b)` and the class of `b` are the same read attempt, and each class consumes its byte. -/
theorem byteOutcomeRunsItsClass : Obligations.ByteOutcomeRunsItsClass := by
  refine fun s c b => ⟨fun i hi => ?same, fun hst hcnt => ?completes⟩
  case same =>
    cases hi
    exact (exec_inByte c b s).symm
  case completes =>
    obtain ⟨htaken, hresults, hsucc⟩ := (s.dec c).readByte_streams c b
    refine ⟨(s.dec c).readByte c b, State.attempt_reading _ hst hcnt, htaken, hresults,
      hsucc ▸ cnt_succ_toNat hcnt, fun hb => DecUnit.readByte_st_of_term hb _, fun hb hle => ?_, fun hb => ?_⟩
    · obtain ⟨hwithin, -⟩ := DecUnit.readByte_st_of_cont (c := c) hb (s.dec c)
      exact (hwithin hle).trans hst
    · obtain ⟨-, heleventh⟩ := DecUnit.readByte_st_of_cont (c := c) hb (s.dec c)
      exact heleventh

/-! ### What one step does to a unit -/

/-- After an edge without reset a unit is as one transfer, run on the state before the edge, leaves it, or as it was. -/
theorem edge_unit_cases {s t : State} {inp : Inputs} {rest : List Stimulus} (hs : s.agenda = .edge inp :: rest)
    (hrst : inp.rst = false) (h : step s = .next t) (u : UnitName) :
    (∃ w r, runWord w s = .next r ∧ sameUnit u r t) ∨ sameUnit u s t := by
  obtain ⟨-, heach, hframe⟩ := edge_runs_each_transfer hs hrst h
  by_cases hu : ∃ w ∈ s.transfers inp, unitOfWord w = u
  · obtain ⟨w, hw, rfl⟩ := hu
    obtain ⟨i, r, hi, hr, hrt⟩ := heach w hw
    exact .inl ⟨w, r, (runWord_eq_exec hi s).trans hr, unitOf_decode hi ▸ hrt⟩
  · exact .inr (hframe u fun w hw hwu => hu ⟨w, hw, hwu⟩)

theorem edge_move {s t : State} {inp : Inputs} {rest : List Stimulus} (hs : s.agenda = .edge inp :: rest)
    (hrst : inp.rst = false) (h : step s = .next t) (c : Codec) :
    EncMove c (s.enc c) (t.enc c) ∧ DecMove c (s.dec c) (t.dec c) := by
  constructor
  · rcases edge_unit_cases hs hrst h (.enc c) with ⟨w, r, hw, hrt⟩ | hst
    · exact (sameUnit_enc c r t).mp hrt ▸ (runWord_move hw c).1
    · exact (sameUnit_enc c s t).mp hst ▸ .same
  · rcases edge_unit_cases hs hrst h (.dec c) with ⟨w, r, hw, hrt⟩ | hst
    · exact (sameUnit_dec c r t).mp hrt ▸ (runWord_move hw c).2
    · exact (sameUnit_dec c s t).mp hst ▸ .same

/-- A step is a reset edge, or it moves each unit at most once and by the unit's own rules
(70_reset_and_hazards.md R220, R240). -/
theorem step_resets_or_moves {s t : State} (h : step s = .next t) :
    (∃ inp rest, s.agenda = .edge inp :: rest ∧ inp.rst = true ∧ t = (s.setAgenda rest).resetUnits) ∨
    ∀ c, EncMove c (s.enc c) (t.enc c) ∧ DecMove c (s.dec c) (t.dec c) := by
  rcases hs : s.agenda with _ | ⟨⟨inp⟩ | ⟨w⟩, rest⟩
  · simp only [step, hs] at h
    cases h
    exact .inr fun _ => ⟨.same, .same⟩
  · cases hrst : inp.rst with
    | false => exact .inr (edge_move hs hrst h)
    | true =>
      simp only [step, hs, runStimulus, clockEdge, hrst, if_true] at h
      cases h
      exact .inl ⟨inp, rest, rfl, hrst, rfl⟩
  · simp only [step, hs, runStimulus] at h
    refine .inr fun c => ?_
    rw [← State.setAgenda_enc s rest, ← State.setAgenda_dec s rest]
    exact runWord_move h c

/-! ### Streams that grow -/

/-- The new stream is the old one with at most one entry behind it. -/
def AtMostOneMore {α : Type} (old new : List α) : Prop :=
  ∃ l : List α, l.length ≤ 1 ∧ new = old ++ l

theorem AtMostOneMore.refl {α : Type} (old : List α) : AtMostOneMore old old :=
  ⟨[], Nat.zero_le 1, (List.append_nil old).symm⟩

theorem AtMostOneMore.concat {α : Type} (old : List α) (a : α) : AtMostOneMore old (old ++ [a]) :=
  ⟨[a], Nat.le_refl 1, rfl⟩

theorem EncMove.out_grows {c : Codec} {e f : EncUnit} (h : EncMove c e f) : AtMostOneMore e.out f.out := by
  cases h with
  | same => exact .refl _
  | accept val => rcases e.accept_cases val with ⟨-, hf⟩ | ⟨-, hf⟩ <;> rw [hf] <;> exact .refl _
  | emit b =>
    rcases e.emitByte_cases c b with ⟨-, -, hf⟩ | ⟨-, hf⟩ <;> rw [hf]
    · exact .concat _ b
    · exact .refl _

theorem DecMove.streams_grow {c : Codec} {d f : DecUnit} (h : DecMove c d f) :
    AtMostOneMore d.taken f.taken ∧ AtMostOneMore d.results f.results := by
  cases h with
  | same => exact ⟨.refl _, .refl _⟩
  | accept => rcases d.accept_cases with ⟨-, hf⟩ | ⟨-, hf⟩ <;> rw [hf] <;> exact ⟨.refl _, .refl _⟩
  | byte b _ _ =>
    obtain ⟨htaken, hresults, -⟩ := d.readByte_streams c b
    rw [htaken, hresults]
    exact ⟨.concat _ b, .refl _⟩
  | eof _ _ => exact ⟨.refl _, .refl _⟩
  | err k _ _ => exact ⟨.refl _, .refl _⟩
  | handOver status =>
    rcases d.handOver_cases status with ⟨r, -, -, hf⟩ | ⟨-, hf⟩ <;> rw [hf]
    · exact ⟨.refl _, .concat _ r⟩
    · exact ⟨.refl _, .refl _⟩

/-- A reset edge leaves every stream as it is (70_reset_and_hazards.md R221). -/
theorem State.resetUnits_streams (s : State) (c : Codec) :
    (s.resetUnits.enc c).out = (s.enc c).out ∧ (s.resetUnits.dec c).taken = (s.dec c).taken ∧
    (s.resetUnits.dec c).results = (s.dec c).results := by
  cases c <;> exact ⟨rfl, rfl, rfl⟩

/-- A step adds at most one entry to each stream of a unit and takes nothing back (20_memory.md R51, R60, R62). -/
theorem step_streams_grow {s t : State} (h : step s = .next t) (c : Codec) :
    AtMostOneMore (s.enc c).out (t.enc c).out ∧ AtMostOneMore (s.dec c).taken (t.dec c).taken ∧
    AtMostOneMore (s.dec c).results (t.dec c).results := by
  rcases step_resets_or_moves h with ⟨inp, rest, -, -, rfl⟩ | hmove
  · obtain ⟨hout, htaken, hresults⟩ := (s.setAgenda rest).resetUnits_streams c
    rw [hout, htaken, hresults, State.setAgenda_enc, State.setAgenda_dec]
    exact ⟨.refl _, .refl _, .refl _⟩
  · obtain ⟨henc, hdec⟩ := hmove c
    exact ⟨henc.out_grows, hdec.streams_grow⟩

/-- Settles O56: a step moves each unit at most once, a move adds at most one entry, and a reset edge adds none. -/
theorem streamsOnlyGrow : Obligations.StreamsOnlyGrow := by
  intro s t h
  have hgrow := step_streams_grow h
  simp only [forall_and] at hgrow
  exact hgrow

end Sys2Proof.Machine
end

section
/-! SUPPORT. The words of the command port and of the byte ports: every word is the encoding of the instruction it
decodes to, and every well-formed instruction decodes back (30_encoding.md R80, R90 to R98). -/

namespace Sys2Proof.Machine

open Sys2Proof

/-! ### Command words -/

/-- The operation code stands above the 64 operand bits (30_encoding.md R90). -/
theorem commandWord_getLsbD_op (op : BitVec 2) (val : Word) (i : Nat) :
    (commandWord op val).getLsbD (64 + i) = op.getLsbD i := by
  rw [commandWord, BitVec.getLsbD_append, if_neg (by omega), Nat.add_sub_cancel_left]

theorem commandWord_val (op : BitVec 2) (val : Word) : (commandWord op val).extractLsb' 0 64 = val :=
  BitVec.extractLsb'_append_eq_right

/-- A command word is its two fields (30_encoding.md R90). -/
theorem commandWord_fields (w : BitVec 66) : commandWord (w.extractLsb' 64 2) (w.extractLsb' 0 64) = w :=
  (BitVec.extractLsb'_append_extractLsb'_eq_extractLsb' rfl).trans BitVec.extractLsb'_eq_self

theorem commandWord_toNat (op : BitVec 2) (val : Word) :
    (commandWord op val).toNat = op.toNat * 2 ^ 64 + val.toNat := by
  rw [commandWord, BitVec.toNat_append, ← Nat.shiftLeft_add_eq_or_of_lt val.isLt, Nat.shiftLeft_eq]

/-- The two bits of the operation code name the operation: bit 1 the codec, bit 0 a decoder (30_encoding.md R91). -/
theorem decodeCommand_commandWord (op : BitVec 2) (val : Word) :
    decodeCommand (commandWord op val) =
      match op.getLsbD 1, op.getLsbD 0 with
      | false, false => .encu val
      | false, true => .decu val
      | true, false => .encs val
      | true, true => .decs val := by
  have hcodec : (commandWord op val).getLsbD 65 = op.getLsbD 1 := commandWord_getLsbD_op op val 1
  have hdecoder : (commandWord op val).getLsbD 64 = op.getLsbD 0 := commandWord_getLsbD_op op val 0
  unfold decodeCommand
  cases h1 : op.getLsbD 1 <;> cases h0 : op.getLsbD 0 <;> simp only [hcodec, hdecoder, h1, h0, commandWord_val]

/-- Settles O2: the operand does not reach the two bits that the decoder looks at. -/
theorem operationCodesSelectUnits : Obligations.OperationCodesSelectUnits := fun val =>
  ⟨congrArg Except.ok (decodeCommand_commandWord 0#2 val), congrArg Except.ok (decodeCommand_commandWord 1#2 val),
    congrArg Except.ok (decodeCommand_commandWord 2#2 val), congrArg Except.ok (decodeCommand_commandWord 3#2 val)⟩

theorem encode_decodeCommand (w : BitVec 66) : encode (decodeCommand w) = .command w := by
  conv_lhs => rw [← commandWord_fields w, decodeCommand_commandWord]
  conv_rhs => rw [← commandWord_fields w]
  rcases op_cases (w.extractLsb' 64 2) with h | h | h | h <;> rw [h] <;> rfl

/-- Settles O3: a word is its two fields, and each of the four operation codes has its row. -/
theorem everyCommandWordIsOneCommand : Obligations.EveryCommandWordIsOneCommand := fun w =>
  ⟨decodeCommand w, wellFormed_of_decode (w := .command w) rfl, rfl, encode_decodeCommand w, w.extractLsb' 64 2,
    w.extractLsb' 0 64, (commandWord_fields w).symm, by rw [← commandWord_toNat, commandWord_fields]⟩

/-! ### Bytes -/

/-- A byte of a source port is the encoding of its class (30_encoding.md R98). -/
theorem encode_decodeInByte (c : Codec) (b : Byte) : encode (decodeInByte c b) = .inByte c b := by
  conv_rhs => rw [← mkByte_fields b]
  unfold decodeInByte
  cases c <;> cases contFlag b <;> cases signFlag b <;> rfl

/-- A byte of an output port is the encoding of its class (30_encoding.md R80). -/
theorem encode_decodeOutByte (c : Codec) (b : Byte) : encode (decodeOutByte c b) = .outByte c b := by
  conv_rhs => rw [← mkByte_fields b]
  unfold decodeOutByte
  cases c <;> cases contFlag b <;> rfl

/-- Settles O4: the decoder's own split by `C` and `S`, and a byte is its two fields. -/
theorem everyByteHasOneClass : Obligations.EveryByteHasOneClass := by
  intro b
  refine ⟨congrArg Except.ok ?unsigned, congrArg Except.ok ?signed, fun c => ?source, fun c => ?output⟩
  case unsigned =>
    change _ = if contFlag b then _ else _
    unfold decodeInByte
    cases contFlag b <;> rfl
  case signed =>
    change _ = if contFlag b then _ else if signFlag b then _ else _
    unfold decodeInByte
    cases contFlag b <;> cases signFlag b <;> rfl
  case source => exact ⟨decodeInByte c b, wellFormed_of_decode (w := .inByte c b) rfl, rfl, encode_decodeInByte c b⟩
  case output =>
    exact ⟨decodeOutByte c b, wellFormed_of_decode (w := .outByte c b) rfl, rfl, encode_decodeOutByte c b⟩

/-! ### Round trip -/

/-- A byte `{k, p}` of DECU is read by `k` (30_encoding.md R98). -/
theorem decodeInByte_unsigned_mkByte (k : Bool) (p : Payload) :
    decodeInByte .unsigned (mkByte k p) = if k then .decuCont p else .decuTerm p := by
  cases k <;> simp [decodeInByte]

/-- A byte `{k, p}` of DECS is read by `k`, and in a terminating byte by the top bit of `p` (30_encoding.md R98). -/
theorem decodeInByte_signed_mkByte (k : Bool) (p : Payload) :
    decodeInByte .signed (mkByte k p) =
      if k then .decsCont p else if p.getLsbD 6 then .decsTermNeg p else .decsTermPos p := by
  simp only [decodeInByte, contFlag_mkByte, signFlag_mkByte, payload_mkByte]
  cases k <;> cases p.getLsbD 6 <;> rfl

/-- A byte `{k, p}` of an encoder is read by `k` (30_encoding.md R80). -/
theorem decodeOutByte_mkByte (c : Codec) (k : Bool) (p : Payload) :
    decodeOutByte c (mkByte k p) =
      match c with
      | .unsigned => if k then .encuOutCont p else .encuOutLast p
      | .signed => if k then .encsOutCont p else .encsOutLast p := by
  cases c <;> cases k <;> simp [decodeOutByte]

/-- Settles O1: the fields of a word are those it was built from, row by row; only the two signed terminators need
their payload's bit 6. -/
theorem encodedInstructionDecodesBack : Obligations.EncodedInstructionDecodesBack := by
  intro i hi
  cases i with
  | encu val => exact congrArg Except.ok (decodeCommand_commandWord 0#2 val)
  | decu val => exact congrArg Except.ok (decodeCommand_commandWord 1#2 val)
  | encs val => exact congrArg Except.ok (decodeCommand_commandWord 2#2 val)
  | decs val => exact congrArg Except.ok (decodeCommand_commandWord 3#2 val)
  | decuCont p => exact congrArg Except.ok (decodeInByte_unsigned_mkByte true p)
  | decuTerm p => exact congrArg Except.ok (decodeInByte_unsigned_mkByte false p)
  | decsCont p => exact congrArg Except.ok (decodeInByte_signed_mkByte true p)
  | decsTermPos p =>
    have hp : p.getLsbD 6 = false := by simpa [Instr.wellFormed] using hi
    exact congrArg Except.ok ((decodeInByte_signed_mkByte false p).trans (by simp only [hp]; rfl))
  | decsTermNeg p =>
    have hp : p.getLsbD 6 = true := hi
    exact congrArg Except.ok ((decodeInByte_signed_mkByte false p).trans (by simp only [hp]; rfl))
  | encuOutCont p => exact congrArg Except.ok (decodeOutByte_mkByte .unsigned true p)
  | encuOutLast p => exact congrArg Except.ok (decodeOutByte_mkByte .unsigned false p)
  | encsOutCont p => exact congrArg Except.ok (decodeOutByte_mkByte .signed true p)
  | encsOutLast p => exact congrArg Except.ok (decodeOutByte_mkByte .signed false p)
  | srcByte | srcEof | srcErr | srcErrAlias | resOk | resOverflow | resSrcFail => rfl

/-! ### Codes and written words -/

/-- Settles O5: the decoder's own split by code; code 3 has the meaning of `ERR`. -/
theorem outcomeCodes : Obligations.OutcomeCodes := fun _ _ _ => ⟨rfl, rfl, rfl, rfl, fun _ => rfl⟩

/-- Settles O6: the decoder's own split by code, and no status has the code 3. -/
theorem statusCodes : Obligations.StatusCodes :=
  ⟨fun _ => ⟨rfl, rfl, rfl, rfl⟩, rfl, rfl, rfl, fun _ r _ => r.status.code_ne_three⟩

/-- Settles O7: the words are concrete, and the decoder computes. -/
theorem writtenWordsDecode : Obligations.WrittenWordsDecode :=
  ⟨rfl, rfl, rfl, rfl, rfl, rfl, rfl, rfl, rfl, rfl, rfl, rfl, rfl⟩

/-- Settles O15: the meanings of the two commands do not name their operand. -/
theorem decodeOperandHasNoEffect : Obligations.DecodeOperandHasNoEffect := fun _ _ _ => ⟨rfl, rfl⟩

end Sys2Proof.Machine
end

section
/-! SUPPORT. The length of an encoding (30_encoding.md R84, R85): what an encoder has left to emit fits in `n + 1`
groups exactly when at most `n + 1` bytes follow. -/

namespace Sys2Proof.Machine

open Sys2Proof

/-! ### One step of an encoder, as arithmetic -/

theorem nextRem_unsigned_toNat (r : Word) : (nextRem .unsigned r).toNat = r.toNat / 128 := lsr64_toNat r 7

theorem nextRem_signed_toInt (r : Word) : (nextRem .signed r).toInt = r.toInt / 128 := asr64_toInt r 7

theorem lowGroup_toNat (r : Word) : (lowGroup r).toNat = r.toNat % 128 := by
  simp [lowGroup]

/-- The sign flag of a group: its value is 64 or more (30_encoding.md R80). -/
theorem lowGroup_sign_iff (r : Word) : (lowGroup r).getLsbD 6 = true ↔ 64 ≤ r.toNat % 128 := by
  rw [← lowGroup_toNat]
  exact (Bool.eq_iff_iff.mp (lowGroup r).msb_eq_decide).trans decide_eq_true_iff

theorem moreFollows_unsigned_eq_false_iff (r : Word) : moreFollows .unsigned r = false ↔ r.toNat < 128 := by
  rw [moreFollows, bne_eq_false_iff_eq, ← BitVec.toNat_inj, nextRem_unsigned_toNat]
  simp [Nat.div_eq_zero_iff]

theorem moreFollows_signed_eq_false_iff (r : Word) :
    moreFollows .signed r = false ↔ -64 ≤ r.toInt ∧ r.toInt < 64 := by
  have hsign := lowGroup_sign_iff r
  have hlow : (r.toNat : Int) % 128 = r.toInt % 128 := by
    rw [BitVec.toInt_eq_toNat_cond]
    omega
  have hzero : nextRem .signed r = 0#64 ↔ r.toInt / 128 = 0 := by
    rw [← BitVec.toInt_inj, nextRem_signed_toInt, BitVec.toInt_zero]
  have hones : nextRem .signed r = BitVec.allOnes 64 ↔ r.toInt / 128 = -1 := by
    rw [← BitVec.toInt_inj, nextRem_signed_toInt, BitVec.toInt_allOnes, if_pos (by decide)]
  simp only [moreFollows, Bool.not_eq_false', Bool.or_eq_true, Bool.and_eq_true, beq_iff_eq, hzero, hones]
  cases hs : (lowGroup r).getLsbD 6 <;> simp only [hs] at hsign ⊢ <;> simp at hsign ⊢ <;> omega

/-! ### Values that fit in `n + 1` groups -/

/-- The value, as the codec reads it, fits in `n + 1` groups of seven bits (30_encoding.md R84, R85). -/
def FitsIn (c : Codec) (n : Nat) (r : Word) : Prop :=
  match c with
  | .unsigned => r.toNat < 2 ^ (7 * n + 7)
  | .signed => -(2 : Int) ^ (7 * n + 6) ≤ r.toInt ∧ r.toInt < 2 ^ (7 * n + 6)

/-- One group is enough exactly when no byte follows (40_unsigned_codec.md R111, 41_signed_codec.md R141). -/
theorem fitsIn_zero_iff (c : Codec) (r : Word) : FitsIn c 0 r ↔ moreFollows c r = false := by
  cases c with
  | unsigned => exact (moreFollows_unsigned_eq_false_iff r).symm
  | signed => exact (moreFollows_signed_eq_false_iff r).symm

/-- One byte takes one group away. -/
theorem fitsIn_succ_iff (c : Codec) (n : Nat) (r : Word) : FitsIn c (n + 1) r ↔ FitsIn c n (nextRem c r) := by
  cases c with
  | unsigned =>
    have hpow : 2 ^ (7 * (n + 1) + 7) = 2 ^ (7 * n + 7) * 128 := Nat.pow_add 2 (7 * n + 7) 7
    simp only [FitsIn, nextRem_unsigned_toNat, hpow]
    omega
  | signed =>
    have hpow : (2 : Int) ^ (7 * (n + 1) + 6) = 2 ^ (7 * n + 6) * 128 := pow_add 2 (7 * n + 6) 7
    simp only [FitsIn, nextRem_signed_toInt, hpow]
    omega

theorem FitsIn.mono {c : Codec} {m n : Nat} {r : Word} (h : FitsIn c m r) (hmn : m ≤ n) : FitsIn c n r := by
  cases c with
  | unsigned => exact h.trans_le (Nat.pow_le_pow_right (by decide) (by omega))
  | signed =>
    have hpow : (2 : Int) ^ (7 * m + 6) ≤ 2 ^ (7 * n + 6) := pow_le_pow_right₀ (by decide) (by omega)
    exact ⟨(neg_le_neg hpow).trans h.1, h.2.trans_le hpow⟩

/-- Ten groups hold every value (30_encoding.md R84, R85). -/
theorem fitsIn_nine (c : Codec) (r : Word) : FitsIn c 9 r := by
  cases c with
  | unsigned => exact r.isLt.trans (by decide)
  | signed =>
    have hle := r.le_toInt
    have hlt := r.toInt_lt
    constructor <;> omega

/-! ### The length of an encoding -/

theorem encodeFuel_of_last {c : Codec} {r : Word} (h : moreFollows c r = false) (fuel : Nat) :
    encodeFuel c (fuel + 1) r = [nextByte c r] := by
  simp [encodeFuel, h]

theorem encodeFuel_of_more {c : Codec} {r : Word} (h : moreFollows c r = true) (fuel : Nat) :
    encodeFuel c (fuel + 1) r = nextByte c r :: encodeFuel c fuel (nextRem c r) := by
  simp [encodeFuel, h]

theorem encodeFuel_length_pos (c : Codec) (fuel : Nat) (r : Word) : 1 ≤ (encodeFuel c (fuel + 1) r).length := by
  cases h : moreFollows c r with
  | false => simp [encodeFuel_of_last h]
  | true => simp [encodeFuel_of_more h]

/-- With enough fuel, at most `n + 1` bytes follow exactly when `n + 1` groups are enough. -/
theorem encodeFuel_length_le_iff {c : Codec} {fuel : Nat} {r : Word} (hr : FitsIn c fuel r) (n : Nat) :
    (encodeFuel c (fuel + 1) r).length ≤ n + 1 ↔ FitsIn c n r := by
  induction fuel generalizing r n with
  | zero =>
    rw [encodeFuel_of_last ((fitsIn_zero_iff c r).mp hr), List.length_singleton]
    exact iff_of_true (Nat.le_add_left 1 n) (hr.mono (Nat.zero_le n))
  | succ fuel ih =>
    cases hm : moreFollows c r with
    | false =>
      rw [encodeFuel_of_last hm, List.length_singleton]
      exact iff_of_true (Nat.le_add_left 1 n) (((fitsIn_zero_iff c r).mpr hm).mono (Nat.zero_le n))
    | true =>
      rw [encodeFuel_of_more hm, List.length_cons, Nat.add_le_add_iff_right]
      cases n with
      | zero =>
        have hpos := encodeFuel_length_pos c fuel (nextRem c r)
        rw [fitsIn_zero_iff, hm]
        exact iff_of_false (by omega) Bool.false_ne_true.symm
      | succ n => rw [ih ((fitsIn_succ_iff c fuel r).mp hr), fitsIn_succ_iff]

theorem encodeValue_length_pos (c : Codec) (v : Word) : 1 ≤ (encodeValue c v).length :=
  encodeFuel_length_pos c 9 v

/-- An encoding has at most `n + 1` bytes exactly when the value fits in `n + 1` groups (30_encoding.md R84, R85). -/
theorem encodeValue_length_le_iff (c : Codec) (v : Word) (n : Nat) :
    (encodeValue c v).length ≤ n + 1 ↔ FitsIn c n v :=
  encodeFuel_length_le_iff (fitsIn_nine c v) n

/-- An encoding has at most `MAXW` bytes (40_unsigned_codec.md R113, 41_signed_codec.md R143). -/
theorem encodeValue_length_le_ten (c : Codec) (v : Word) : (encodeValue c v).length ≤ 10 :=
  (encodeValue_length_le_iff c v 9).mpr (fitsIn_nine c v)

/-- Settles O24: the length is at most `n` exactly when `n` groups hold the value. -/
theorem unsignedLengthIsLeast : Obligations.UnsignedLengthIsLeast := by
  intro v
  have hfits (n : Nat) (hn : 1 ≤ n) : (encodeValue .unsigned v).length ≤ n ↔ v.toNat < 2 ^ (7 * n) := by
    obtain ⟨n, rfl⟩ := Nat.exists_eq_add_of_le' hn
    exact encodeValue_length_le_iff .unsigned v n
  have hpos := encodeValue_length_pos .unsigned v
  exact ⟨hpos, encodeValue_length_le_ten _ v, (hfits _ hpos).mp le_rfl, fun n hn => (hfits n hn).mpr⟩

/-- Settles O25: the length is at most `n` exactly when `n` groups hold the value, sign included. -/
theorem signedLengthIsLeast : Obligations.SignedLengthIsLeast := by
  intro v
  have hfits (n : Nat) (hn : 1 ≤ n) : (encodeValue .signed v).length ≤ n ↔
      -(2 : Int) ^ (7 * n - 1) ≤ v.toInt ∧ v.toInt < 2 ^ (7 * n - 1) := by
    obtain ⟨n, rfl⟩ := Nat.exists_eq_add_of_le' hn
    exact encodeValue_length_le_iff .signed v n
  have hpos := encodeValue_length_pos .signed v
  exact ⟨hpos, encodeValue_length_le_ten _ v, (hfits _ hpos).mp le_rfl,
    fun n hn hlo hhi => (hfits n hn).mpr ⟨hlo, hhi⟩⟩

end Sys2Proof.Machine
end

section
/-! SUPPORT. The value of an encoding, one group at a time (30_encoding.md R82, R83), and why the encoder's encoding of
it is the shortest. -/

namespace Sys2Proof.Machine

open Sys2Proof

/-! ### The lowest group and the groups above it -/

/-- The value whose lowest group is `p` and whose groups above it are `x` (30_encoding.md R82). -/
def joinGroup (p : Payload) (x : Word) : Word := p.setWidth 64 ||| shl64 x groupW

theorem joinGroup_toNat (p : Payload) (x : Word) : (joinGroup p x).toNat = 128 * (x.toNat % 2 ^ 57) + p.toNat := by
  have hshift : (shl64 x groupW).toNat = 128 * (x.toNat % 2 ^ 57) := by
    rw [shl64_toNat, Nat.mul_comm]
    exact Nat.mul_mod_mul_left 128 x.toNat (2 ^ 57)
  rw [joinGroup, BitVec.toNat_or, hshift, BitVec.toNat_setWidth_of_le (by decide), Nat.or_comm]
  exact (Nat.two_pow_add_eq_or_of_lt p.isLt _).symm

@[simp] theorem lowGroup_joinGroup (p : Payload) (x : Word) : lowGroup (joinGroup p x) = p := by
  apply BitVec.eq_of_toNat_eq
  have hp := p.isLt
  rw [lowGroup_toNat, joinGroup_toNat]
  omega

/-- Taking the lowest group away leaves the groups above it, where the join has dropped no bit of them. -/
theorem nextRem_joinGroup {c : Codec} {n : Nat} {x : Word} (hx : FitsIn c n x) (hn : n ≤ 7) (p : Payload) :
    nextRem c (joinGroup p x) = x := by
  have hp := p.isLt
  have hjoin := joinGroup_toNat p x
  cases c with
  | unsigned =>
    have hlt : x.toNat < 2 ^ 56 := hx.mono hn
    apply BitVec.eq_of_toNat_eq
    rw [nextRem_unsigned_toNat, hjoin]
    omega
  | signed =>
    have hlt := hx.mono hn
    simp only [FitsIn] at hlt
    apply BitVec.eq_of_toInt_eq
    rw [nextRem_signed_toInt]
    rw [BitVec.toInt_eq_toNat_cond] at hlt ⊢
    rw [BitVec.toInt_eq_toNat_cond, hjoin]
    omega

/-! ### The value of an encoding as joined groups -/

theorem groupAt_zero (p : Payload) : groupAt p 0 = p.setWidth 64 := BitVec.shiftLeft_zero _

theorem groupAt_succ (p : Payload) (i : Nat) : groupAt p (i + 1) = shl64 (groupAt p i) groupW :=
  BitVec.shiftLeft_add _ (groupW * i) groupW

theorem shl64_or (x y : Word) (n : Nat) : shl64 (x ||| y) n = shl64 x n ||| shl64 y n :=
  BitVec.shiftLeft_or_distrib x y n

theorem onesFrom_groupW_succ (n : Nat) : onesFrom (groupW * (n + 1)) = shl64 (onesFrom (groupW * n)) groupW :=
  BitVec.shiftLeft_add _ (groupW * n) groupW

theorem uvalFrom_succ (i : Nat) (bs : List Byte) : uvalFrom (i + 1) bs = shl64 (uvalFrom i bs) groupW := by
  induction bs generalizing i with
  | nil => exact (BitVec.zero_shiftLeft _).symm
  | cons b bs ih => rw [uvalFrom, uvalFrom, shl64_or, groupAt_succ, ih]

theorem uval_cons (b : Byte) (bs : List Byte) : uval (b :: bs) = joinGroup (payload b) (uval bs) := by
  rw [uval, uvalFrom, groupAt_zero, uvalFrom_succ, joinGroup, uval]

/-- The first byte is the lowest group of the value; the sign comes from the last one (30_encoding.md R83). -/
theorem valueOf_cons (c : Codec) (b : Byte) {bs : List Byte} (h : bs ≠ []) :
    valueOf c (b :: bs) = joinGroup (payload b) (valueOf c bs) := by
  cases c with
  | unsigned => exact uval_cons b bs
  | signed =>
    have hsign : lastSign (b :: bs) = lastSign bs := by
      rw [lastSign, lastSign, List.getLast?_cons_of_ne_nil h]
    simp only [valueOf, sval, hsign, uval_cons, List.length_cons, onesFrom_groupW_succ, joinGroup, shl64_or,
      BitVec.or_assoc]
    cases lastSign bs
    · simp [shl64]
    · rfl

/-- What the sign flag of a terminating byte puts above its group (30_encoding.md R83). -/
def signFill (c : Codec) (b : Byte) : Word :=
  match c with
  | .unsigned => 0#64
  | .signed => if signFlag b then BitVec.allOnes 64 else 0#64

theorem valueOf_singleton (c : Codec) (b : Byte) : valueOf c [b] = joinGroup (payload b) (signFill c b) := by
  cases c with
  | unsigned => exact uval_cons b []
  | signed =>
    simp only [valueOf, sval, uval_cons, joinGroup]
    cases hs : signFlag b <;> simp [lastSign, hs, signFill, onesFrom, uval, uvalFrom, shl64]

/-- A single terminating byte is one group, sign included. -/
theorem moreFollows_valueOf_singleton (c : Codec) (b : Byte) : moreFollows c (valueOf c [b]) = false := by
  have hfits : FitsIn c 0 (signFill c b) := by
    cases c <;> cases hs : signFlag b <;> simp [FitsIn, signFill, hs]
  have hrem := nextRem_joinGroup hfits (by decide) (payload b)
  rw [valueOf_singleton]
  cases c with
  | unsigned =>
    rw [moreFollows, hrem]
    rfl
  | signed =>
    simp only [moreFollows, hrem, lowGroup_joinGroup]
    cases hs : signFlag b <;> simp [signFill, hs]

/-! ### The shortest encoding -/

/-- The value of at most nine bytes fits in as many groups. -/
theorem fitsIn_valueOf (c : Codec) (b : Byte) {bs : List Byte} (h : bs.length ≤ 8) :
    FitsIn c bs.length (valueOf c (bs ++ [b])) := by
  induction bs with
  | nil => exact (fitsIn_zero_iff c _).mpr (moreFollows_valueOf_singleton c b)
  | cons a bs ih =>
    rw [List.length_cons] at h
    have hbs := ih (Nat.le_of_succ_le h)
    rw [List.length_cons, fitsIn_succ_iff, List.cons_append, valueOf_cons c a (by simp),
      nextRem_joinGroup hbs (Nat.le_of_succ_le_succ h)]
    exact hbs

/-- The encoder takes the bytes off one by one: if it emits as many, it emits the same (30_encoding.md R81). -/
theorem encodeFuel_valueOf {c : Codec} {b : Byte} {bs : List Byte} (hcont : allCont bs) (hb : contFlag b = false)
    {fuel : Nat} (hlen : bs.length ≤ 8)
    (h : (encodeFuel c (fuel + 1) (valueOf c (bs ++ [b]))).length = bs.length + 1) :
    encodeFuel c (fuel + 1) (valueOf c (bs ++ [b])) = bs ++ [b] := by
  induction bs generalizing fuel with
  | nil =>
    rw [List.nil_append, encodeFuel_of_last (moreFollows_valueOf_singleton c b), nextByte,
      moreFollows_valueOf_singleton, valueOf_singleton, lowGroup_joinGroup, ← hb, mkByte_fields]
  | cons a bs ih =>
    rw [allCont, List.forall_mem_cons] at hcont
    obtain ⟨ha, hcont⟩ := hcont
    rw [List.length_cons] at hlen h
    have hvalue : valueOf c (a :: bs ++ [b]) = joinGroup (payload a) (valueOf c (bs ++ [b])) :=
      valueOf_cons c a (by simp)
    have hrem : nextRem c (valueOf c (a :: bs ++ [b])) = valueOf c (bs ++ [b]) := by
      rw [hvalue, nextRem_joinGroup (fitsIn_valueOf c b (Nat.le_of_succ_le hlen)) (Nat.le_of_succ_le_succ hlen)]
    cases hm : moreFollows c (valueOf c (a :: bs ++ [b])) with
    | false =>
      rw [encodeFuel_of_last hm, List.length_singleton] at h
      omega
    | true =>
      have hbyte : nextByte c (valueOf c (a :: bs ++ [b])) = a := by
        rw [nextByte, hm, hvalue, lowGroup_joinGroup, ← ha, mkByte_fields]
      rw [encodeFuel_of_more hm, hrem, List.length_cons, Nat.add_right_cancel_iff] at h
      rw [encodeFuel_of_more hm, hbyte, hrem]
      cases fuel with
      | zero => simp [encodeFuel] at h
      | succ fuel => rw [ih hcont (Nat.le_of_succ_le hlen) h, List.cons_append]

/-- Settles O26: the value of `n + 1` bytes fits in `n + 1` groups, so the encoder needs no more bytes; if it needs as
many, each is the group it takes off. -/
theorem encodingIsShortestAndUnique : Obligations.EncodingIsShortestAndUnique := by
  intro c bs b hcont hb
  refine ⟨?shortest, encodeFuel_valueOf hcont hb⟩
  case shortest =>
    rcases Nat.lt_or_ge 8 bs.length with hlong | hshort
    · exact (encodeValue_length_le_ten c _).trans (by omega)
    · exact (encodeValue_length_le_iff c _ bs.length).mpr (fitsIn_valueOf c b hshort)

end Sys2Proof.Machine
end

section
/-! SUPPORT. Where the model stops (log 10, log 11), and that the block itself never refuses
(42_command_and_result.md R182). -/

namespace Sys2Proof.Machine

open Sys2Proof

/-! ### Instructions -/

/-- A read attempt stops exactly in READING with `cnt` beyond the rules' range (log 10). -/
theorem State.attempt_eq_fault_iff (s : State) (c : Codec) (f : DecUnit → DecUnit) :
    s.attempt c f = .fault .countOutOfRange ↔ (s.dec c).st = .reading ∧ 10 < (s.dec c).cnt.toNat := by
  rcases s.attempt_cases c f with ⟨-, hc, ha⟩ | ⟨hr, hc, ha⟩ | ⟨hr, ha⟩ <;> rw [ha]
  · exact iff_of_false nofun fun h => by omega
  · exact iff_of_true rfl ⟨hr, hc⟩
  · exact iff_of_false nofun fun h => hr h.1

/-- No step of a unit is refused (42_command_and_result.md R182). -/
theorem UnitAction.ne_refused {u : UnitName} {g : State → Answer State} (hg : UnitAction u g) (s : State)
    (r : Refusal) : g s ≠ .refused r := by
  cases hg with
  | onEnc c f => exact nofun
  | onDec c f => exact nofun
  | attempt c f => rcases s.attempt_cases c f with ⟨-, -, ha⟩ | ⟨-, -, ha⟩ | ⟨-, ha⟩ <;> simp [ha]

theorem exec_ne_refused (i : Instr) (s : State) (r : Refusal) : exec i s ≠ .refused r :=
  (exec_unitAction i).ne_refused s r

/-- An instruction that is no read attempt completes in every state. -/
theorem exec_completes_of_not_read {i : Instr} (h : isRead i = false) (s : State) : ∃ t, exec i s = .next t := by
  cases i with
  | encu | decu | encs | decs | encuOutCont | encuOutLast | encsOutCont | encsOutLast | resOk | resOverflow
    | resSrcFail => exact ⟨_, rfl⟩
  | decuCont | decuTerm | decsCont | decsTermPos | decsTermNeg | srcByte | srcEof | srcErr | srcErrAlias =>
    exact absurd h Bool.false_ne_true.symm

/-- An instruction stops exactly as a read attempt of a decoder in READING with `cnt` beyond the rules' range
(log 10). -/
theorem exec_eq_fault_iff (i : Instr) (s : State) :
    exec i s = .fault .countOutOfRange ↔
      isRead i = true ∧ ∃ c, unitOf i = .dec c ∧ (s.dec c).st = .reading ∧ 10 < (s.dec c).cnt.toNat := by
  cases hread : isRead i with
  | false =>
    obtain ⟨t, ht⟩ := exec_completes_of_not_read hread s
    rw [ht]
    exact iff_of_false nofun fun h => Bool.false_ne_true h.1
  | true =>
    obtain ⟨c, f, hc, hexec⟩ := exec_eq_attempt_of_isRead hread
    rw [hexec, State.attempt_eq_fault_iff]
    constructor
    · exact fun h => ⟨rfl, c, hc, h⟩
    · rintro ⟨-, c', hc', h⟩
      obtain rfl := UnitName.dec_inj (hc.symm.trans hc')
      exact h

/-! ### Transfers and steps -/

/-- The only word that is no instruction is the status code 3 (30_encoding.md R95). -/
theorem decode_eq_error {w : PortWord} {e : DecodeError} (h : decode w = .error e) : ∃ c, w = .status c 3#2 := by
  cases w with
  | status c code =>
    rcases op_cases code with rfl | rfl | rfl | rfl
    · cases h
    · cases h
    · cases h
    · exact ⟨c, rfl⟩
  | command | outByte | inByte | outcome => cases h

/-- A transfer is refused only if its word is no instruction. -/
theorem runWord_eq_refused {w : PortWord} {s : State} {r : Refusal} (h : runWord w s = .refused r) :
    (∃ c, w = .status c 3#2) ∧ r = .undecodable .statusNeverDriven := by
  cases hd : decode w with
  | ok i => exact absurd (runWord_eq_exec hd s ▸ h) (exec_ne_refused i s r)
  | error e =>
    simp only [runWord, hd] at h
    cases h
    exact ⟨decode_eq_error hd, rfl⟩

/-- Transfers of instructions are never refused. -/
theorem runWords_ne_refused {l : List PortWord} (hl : ∀ w ∈ l, ∃ i, decode w = .ok i) (s : State) (r : Refusal) :
    runWords l s ≠ .refused r := by
  induction l generalizing s with
  | nil => exact nofun
  | cons w ws ih =>
    rw [List.forall_mem_cons] at hl
    obtain ⟨⟨i, hi⟩, hws⟩ := hl
    simp only [runWords, runWord_eq_exec hi]
    cases hexec : exec i s with
    | next t => exact ih hws t
    | fault f => exact nofun
    | refused q => exact absurd hexec (exec_ne_refused i s q)

theorem step_nil {s : State} (hs : s.agenda = []) : step s = .next s := by
  simp only [step, hs]

theorem step_runWord {s : State} {w : PortWord} {rest : List Stimulus} (hs : s.agenda = .transfer w :: rest) :
    step s = runWord w (s.setAgenda rest) := by
  simp only [step, hs, runStimulus]

theorem step_reset {s : State} {inp : Inputs} {rest : List Stimulus} (hs : s.agenda = .edge inp :: rest)
    (hrst : inp.rst = true) : step s = .next (s.setAgenda rest).resetUnits := by
  simp only [step, hs, runStimulus, clockEdge, hrst, if_true]

/-- An edge is never refused: it transfers instructions only. -/
theorem step_edge_ne_refused {s : State} {inp : Inputs} {rest : List Stimulus} (hs : s.agenda = .edge inp :: rest)
    (r : Refusal) : step s ≠ .refused r := by
  cases hrst : inp.rst with
  | true => rw [step_reset hs hrst]; exact nofun
  | false =>
    rw [step_edge hs hrst]
    exact runWords_ne_refused (fun w hw => decode_of_mem_transfers hw) _ r

/-- In a state that meets R35 a transfer does not fault. -/
theorem runWord_ne_fault {s : State} (hs : s.Inv) (w : PortWord) (f : Fault) : runWord w s ≠ .fault f := by
  cases hd : decode w with
  | ok i =>
    obtain ⟨t, ht⟩ := (runWord_unitAction hd).completes hs
    rw [ht]
    exact nofun
  | error e => simp only [runWord, hd]; exact nofun

/-- A step is refused only at a transfer of the status code 3 (log 11). -/
theorem step_eq_refused {s : State} {r : Refusal} (h : step s = .refused r) :
    ∃ c rest, s.agenda = .transfer (.status c 3#2) :: rest ∧ r = .undecodable .statusNeverDriven := by
  rcases hs : s.agenda with _ | ⟨⟨inp⟩ | ⟨w⟩, rest⟩
  · rw [step_nil hs] at h
    cases h
  · exact absurd h (step_edge_ne_refused hs r)
  · rw [step_runWord hs] at h
    obtain ⟨⟨c, rfl⟩, hr⟩ := runWord_eq_refused h
    exact ⟨c, rest, rfl, hr⟩

/-- In a state that meets R35 no step faults. -/
theorem step_ne_fault {s : State} (hinv : s.Inv) (f : Fault) : step s ≠ .fault f := by
  rcases hs : s.agenda with _ | ⟨⟨inp⟩ | ⟨w⟩, rest⟩
  · rw [step_nil hs]
    exact nofun
  · cases hrst : inp.rst with
    | true => rw [step_reset hs hrst]; exact nofun
    | false =>
      obtain ⟨t, ht⟩ := edge_completes hs hrst hinv
      rw [ht]
      exact nofun
  · rw [step_runWord hs]
    exact runWord_ne_fault (s := s.setAgenda rest) hinv w f

/-- Settles O55: instructions are steps of units, which never refuse; the words of an edge all decode; and R35 keeps
`cnt` in the rules' range. -/
theorem stopsAreOnlyTheModelsOwn : Obligations.StopsAreOnlyTheModelsOwn :=
  ⟨exec_ne_refused, fun i s => (exec_eq_fault_iff i s).trans (and_congr_right fun _ => exists_codec),
    fun _ _ => step_eq_refused, fun _ f hinv => step_ne_fault hinv f⟩

end Sys2Proof.Machine
end

section
/-! SUPPORT. The bytes of an encoding (40_unsigned_codec.md R111, R113, R115; 41_signed_codec.md R143, R145) and the
value they spell (R131, R161): a remainder is its lowest group and the remainder that follows. -/

namespace Sys2Proof.Machine

open Sys2Proof

/-! ### The value of an encoding -/

/-- A remainder is the group it presents and the remainder that follows, whichever the shift. -/
theorem joinGroup_lowGroup_nextRem (c : Codec) (r : Word) : joinGroup (lowGroup r) (nextRem c r) = r := by
  apply BitVec.eq_of_toNat_eq
  rw [joinGroup_toNat, lowGroup_toNat]
  have hlt := r.isLt
  cases c with
  | unsigned =>
    rw [nextRem_unsigned_toNat]
    omega
  | signed =>
    have hrem := nextRem_signed_toInt r
    rw [BitVec.toInt_eq_toNat_cond, BitVec.toInt_eq_toNat_cond] at hrem
    omega

/-- At the last byte the remainder is what its sign flag stands for (40_unsigned_codec.md R111, 41_signed_codec.md
R141). -/
theorem signFill_nextByte_of_last {c : Codec} {r : Word} (h : moreFollows c r = false) :
    signFill c (nextByte c r) = nextRem c r := by
  cases c with
  | unsigned => exact (bne_eq_false_iff_eq.mp h).symm
  | signed =>
    simp only [moreFollows, Bool.not_eq_false', Bool.or_eq_true, Bool.and_eq_true, beq_iff_eq,
      Bool.not_eq_true'] at h
    simp only [signFill, nextByte, signFlag_mkByte]
    rcases h with ⟨hrem, hsign⟩ | ⟨hrem, hsign⟩ <;> simp only [hrem, hsign] <;> rfl

theorem encodeFuel_ne_nil (c : Codec) (fuel : Nat) (r : Word) : encodeFuel c (fuel + 1) r ≠ [] :=
  List.ne_nil_of_length_pos (encodeFuel_length_pos c fuel r)

/-- What holds of a last byte, and of a byte that follows if of the rest, holds of every operation with enough fuel
(40_unsigned_codec.md R115, 41_signed_codec.md R145). -/
theorem FitsIn.byteInduction {c : Codec} {motive : ∀ fuel r, FitsIn c fuel r → Prop}
    (last : ∀ fuel r hr, moreFollows c r = false → motive fuel r hr)
    (more : ∀ fuel r hr hrem, moreFollows c r = true → motive fuel (nextRem c r) hrem → motive (fuel + 1) r hr)
    (fuel : Nat) (r : Word) (hr : FitsIn c fuel r) : motive fuel r hr := by
  induction fuel generalizing r with
  | zero => exact last 0 r hr ((fitsIn_zero_iff c r).mp hr)
  | succ fuel ih =>
    cases hm : moreFollows c r with
    | false => exact last (fuel + 1) r hr hm
    | true => exact more fuel r hr ((fitsIn_succ_iff c fuel r).mp hr) hm (ih _ _)

/-- With enough fuel the bytes spell the remainder they start from. -/
theorem valueOf_encodeFuel {c : Codec} {fuel : Nat} {r : Word} (hr : FitsIn c fuel r) :
    valueOf c (encodeFuel c (fuel + 1) r) = r := by
  induction fuel, r, hr using FitsIn.byteInduction with
  | last fuel r hr hm =>
    rw [encodeFuel_of_last hm, valueOf_singleton, signFill_nextByte_of_last hm, payload_nextByte,
      joinGroup_lowGroup_nextRem]
  | more fuel r hr hrem hm ih =>
    rw [encodeFuel_of_more hm, valueOf_cons c _ (encodeFuel_ne_nil c fuel _), ih, payload_nextByte,
      joinGroup_lowGroup_nextRem]

/-- Settles O27: each byte gives back the group that was taken off, and the last one what is left above it. -/
theorem valueOfEncoding : Obligations.ValueOfEncoding := fun c v => valueOf_encodeFuel (fitsIn_nine c v)

/-! ### One byte -/

theorem mkByte_toNat (k : Bool) (p : Payload) : (mkByte k p).toNat = (if k then 128 else 0) + p.toNat := by
  rw [mkByte, BitVec.toNat_append, ← Nat.shiftLeft_add_eq_or_of_lt p.isLt, Nat.shiftLeft_eq]
  cases k <;> rfl

theorem moreFollows_unsigned_iff (r : Word) : moreFollows .unsigned r = true ↔ r.toNat / 128 ≠ 0 := by
  rw [← Bool.not_eq_false, moreFollows_unsigned_eq_false_iff]
  omega

theorem EncUnit.offer?_of_emit {c : Codec} {e : EncUnit} (h : e.st = .emit) :
    e.offer? c = some { byte := nextByte c e.rem, last := !contFlag (nextByte c e.rem) } := by
  simp only [EncUnit.offer?, h]

/-- Settles O16: the payload is the remainder modulo 128, and the flag says whether the quotient is zero. -/
theorem encuPresentedByte : Obligations.EncuPresentedByte := by
  refine ⟨fun _ => EncUnit.offer?_of_emit, fun r => ⟨?payload, nextRem_unsigned_toNat r, ?flag, ?byte⟩⟩
  case payload => rw [payload_nextByte, lowGroup_toNat]
  case flag => rw [contFlag_nextByte, moreFollows_unsigned_iff]
  case byte => simp only [nextByte, mkByte_toNat, lowGroup_toNat, moreFollows_unsigned_iff]

/-! ### The remainder after some bytes -/

theorem nextRem_unsigned_iterate (v : Word) (k : Nat) : (nextRem .unsigned)^[k] v = lsr64 v (7 * k) := by
  induction k with
  | zero => exact (BitVec.ushiftRight_zero v).symm
  | succ k ih =>
    rw [Function.iterate_succ_apply', ih]
    exact (BitVec.shiftRight_add v (7 * k) 7).symm

theorem nextRem_signed_iterate (v : Word) (k : Nat) : (nextRem .signed)^[k] v = asr64 v (7 * k) := by
  induction k with
  | zero => exact BitVec.sshiftRight_zero.symm
  | succ k ih =>
    rw [Function.iterate_succ_apply', ih]
    exact BitVec.sshiftRight_add.symm

/-- `k` bytes take `k` groups away. -/
theorem fitsIn_iterate (c : Codec) (k : Nat) (v : Word) : FitsIn c 0 ((nextRem c)^[k] v) ↔ FitsIn c k v := by
  induction k generalizing v with
  | zero => rfl
  | succ k ih => rw [Function.iterate_succ_apply, ih, fitsIn_succ_iff]

/-- Settles O21: shifts add up, and ten groups hold every value. -/
theorem remainderAfterSteps : Obligations.RemainderAfterSteps := fun v k =>
  ⟨nextRem_unsigned_iterate v k, nextRem_signed_iterate v k, fun c hk =>
    (fitsIn_zero_iff c _).mp ((fitsIn_iterate c k v).mpr ((fitsIn_nine c v).mono hk))⟩

/-! ### The bytes of an encoding -/

/-- Fuel beyond what the remainder needs does not show. -/
theorem encodeFuel_succ {c : Codec} {fuel : Nat} {r : Word} (hr : FitsIn c fuel r) :
    encodeFuel c (fuel + 2) r = encodeFuel c (fuel + 1) r := by
  induction fuel, r, hr using FitsIn.byteInduction with
  | last fuel r hr hm =>
    rw [encodeFuel_of_last hm, encodeFuel_of_last hm]
  | more fuel r hr hrem hm ih =>
    rw [encodeFuel_of_more hm, encodeFuel_of_more hm, ih]

/-- Settles O22: what is left after one byte fits in nine groups, so nine bytes are as good as ten. -/
theorem encodingRecursion : Obligations.EncodingRecursion := by
  intro c v
  cases hm : moreFollows c v with
  | false =>
    rw [encodeValue, encodeFuel_of_last hm, nextByte, hm]
    rfl
  | true =>
    rw [encodeValue, encodeFuel_of_more hm, nextByte, hm, encodeValue,
      ← encodeFuel_succ ((fitsIn_succ_iff c 8 v).mp (fitsIn_nine c v))]
    rfl

/-- Byte `i` carries the lowest group of the remainder after `i` bytes, and its flag says whether a byte follows. -/
theorem encodeFuel_getElem? {c : Codec} {fuel : Nat} {r : Word} (hr : FitsIn c fuel r) :
    ∀ i < (encodeFuel c (fuel + 1) r).length, (encodeFuel c (fuel + 1) r)[i]? =
      some (mkByte (decide (i + 1 < (encodeFuel c (fuel + 1) r).length)) (lowGroup ((nextRem c)^[i] r))) := by
  induction fuel, r, hr using FitsIn.byteInduction with
  | last fuel r hr hm =>
    intro i hi
    rw [encodeFuel_of_last hm] at hi ⊢
    obtain rfl := Nat.lt_one_iff.mp hi
    simp [nextByte, hm]
  | more fuel r hr hrem hm ih =>
    intro i hi
    rw [encodeFuel_of_more hm] at hi ⊢
    cases i with
    | zero => simp [nextByte, hm, Nat.lt_of_succ_le (encodeFuel_length_pos c fuel (nextRem c r))]
    | succ i => simpa using ih i (Nat.lt_of_succ_lt_succ hi)

/-- The operand zero-extended or sign-extended to the bits of ten groups (30_encoding.md R84, R85). -/
def tenGroups : Codec → Word → BitVec 70
  | .unsigned, v => v.setWidth 70
  | .signed, v => v.signExtend 70

/-- After `i` bytes the lowest group is group `i` of the extended operand. -/
theorem lowGroup_iterate (c : Codec) (v : Word) {i : Nat} (hi : i ≤ 9) :
    lowGroup ((nextRem c)^[i] v) = (tenGroups c v).extractLsb' (7 * i) 7 := by
  apply BitVec.eq_of_getLsbD_eq
  intro j hj
  have hbit : 7 * i + j < 70 := by omega
  have hj64 : ¬64 ≤ j := by omega
  rw [lowGroup, BitVec.getLsbD_extractLsb', BitVec.getLsbD_extractLsb', Nat.zero_add]
  congr 1
  cases c with
  | unsigned =>
    rw [nextRem_unsigned_iterate, lsr64, BitVec.getLsbD_ushiftRight, tenGroups, BitVec.getLsbD_setWidth,
      decide_eq_true hbit, Bool.true_and]
  | signed =>
    rw [nextRem_signed_iterate, asr64, BitVec.getLsbD_sshiftRight, tenGroups, BitVec.getLsbD_signExtend,
      decide_eq_true hbit, decide_eq_false hj64, Bool.not_false]

/-- Settles O23: byte `i` is the group left lowest after `i` shifts. -/
theorem encodingBytes : Obligations.EncodingBytes := by
  intro c v i h
  have hi : i ≤ 9 := Nat.le_of_lt_succ (h.trans_le (encodeValue_length_le_ten c v))
  have hbyte := encodeFuel_getElem? (fitsIn_nine c v) i h
  rw [lowGroup_iterate c v hi] at hbyte
  obtain ⟨_, hbyte⟩ := List.getElem_of_getElem? hbyte
  refine hbyte.trans ?_
  cases c <;> rfl

/-- An encoding is continuation bytes and one terminating byte (30_encoding.md R81). -/
theorem encodeFuel_eq_concat {c : Codec} {fuel : Nat} {r : Word} (hr : FitsIn c fuel r) :
    ∃ bs b, encodeFuel c (fuel + 1) r = bs ++ [b] ∧ allCont bs ∧ contFlag b = false := by
  induction fuel, r, hr using FitsIn.byteInduction with
  | last fuel r hr hm =>
    exact ⟨[], nextByte c r, encodeFuel_of_last hm fuel, List.forall_mem_nil _, (contFlag_nextByte c r).trans hm⟩
  | more fuel r hr hrem hm ih =>
    obtain ⟨bs, b, hbytes, hcont, hb⟩ := ih
    refine ⟨nextByte c r :: bs, b, ?_, List.forall_mem_cons.mpr ⟨(contFlag_nextByte c r).trans hm, hcont⟩, hb⟩
    rw [encodeFuel_of_more hm, hbytes, List.cons_append]

end Sys2Proof.Machine
end

section
/-! SUPPORT. The steps of a unit that its partner takes part in: an encoder that hands over the byte it presents
(40_unsigned_codec.md R112), and a decoder's read attempt, outcome by outcome (R121 to R127, 41_signed_codec.md R151 to
R157). -/

namespace Sys2Proof.Machine

open Sys2Proof

/-! ### An encoder's step -/

/-- The presented byte goes out, and its flag says whether the unit goes on (40_unsigned_codec.md R112). -/
theorem onEnc_emitByte_of_presented {s : State} {c : Codec} {k : Bool} {p : Payload} (hst : (s.enc c).st = .emit)
    (hb : nextByte c (s.enc c).rem = mkByte k p) :
    s.onEnc c (EncUnit.emitByte c (mkByte k p)) = .next (s.setEnc c
      { st := if k then .emit else .idle, rem := nextRem c (s.enc c).rem, out := (s.enc c).out ++ [mkByte k p] }) := by
  simp only [State.onEnc, EncUnit.emitByte, hst, hb, if_true, contFlag_mkByte]

/-- An encoder in EMIT whose consumer is not ready waits, whatever the other wires of the edge say (20_memory.md
R56). -/
theorem enc_waits {s t : State} {c : Codec} {inp : Inputs} {rest : List Stimulus} (hst : (s.enc c).st = .emit)
    (hs : s.agenda = .edge inp :: rest) (hrst : inp.rst = false) (hready : inp.outReady c = false)
    (h : step s = .next t) : t.enc c = s.enc c := by
  have hopen : s.openAt (.enc c) = .output c := by simp only [openAt_enc, EncUnit.openAt, hst]
  exact (sameUnit_enc c s t).mp (sameUnit_of_not_offered hs hrst (hopen ▸ hready) h)

/-- Settles O18: the presented byte is the one taken, and an encoder in EMIT is open at its output port only. -/
theorem encuStep : Obligations.EncuStep :=
  ⟨fun _ _ => onEnc_emitByte_of_presented (c := .unsigned), fun _ _ => onEnc_emitByte_of_presented (c := .unsigned),
    fun _ _ _ _ => enc_waits (c := .unsigned)⟩

/-! ### A byte read by a decoder -/

theorem mkByte_payload {b : Byte} {k : Bool} (h : contFlag b = k) : mkByte k (payload b) = b := h ▸ mkByte_fields b

/-- A continuation byte within the budget joins the value (40_unsigned_codec.md R121, 41_signed_codec.md R151). -/
theorem DecUnit.readCont_of_le {d : DecUnit} (h : d.cnt.toNat ≤ 9) (p : Payload) :
    d.readCont p = { d with acc := d.gather p, cnt := d.cnt + 1#4, taken := d.taken ++ [mkByte true p] } := by
  rcases d.readCont_cases p with ⟨-, hd⟩ | ⟨hge, -⟩
  · exact hd
  · omega

/-- The eleventh continuation byte is Overflow (40_unsigned_codec.md R123, 41_signed_codec.md R153). -/
theorem DecUnit.readCont_of_ten {d : DecUnit} (h : d.cnt = 10#4) (p : Payload) :
    d.readCont p = { d with st := .failed, acc := 0#64, cnt := 11#4, kind := .overflow, cause := 0#_,
                            taken := d.taken ++ [mkByte true p] } := by
  rcases d.readCont_cases p with ⟨hle, -⟩ | ⟨-, hd⟩
  · rw [h] at hle
    exact absurd hle (by decide)
  · rw [hd, h]
    rfl

theorem DecUnit.readByte_of_cont (c : Codec) {b : Byte} (h : contFlag b = true) (d : DecUnit) :
    d.readByte c b = d.readCont (payload b) := by
  simp only [DecUnit.readByte, h]

/-- The ones above group `n` that the sign flag of a terminating byte asks for (41_signed_codec.md R152): none for
DECU. -/
theorem shl64_signFill (c : Codec) (b : Byte) (n : Nat) :
    shl64 (signFill c b) n = if c = .signed ∧ signFlag b = true then onesFrom n else 0#64 := by
  cases c <;> cases hs : signFlag b <;> simp [signFill, hs, onesFrom, shl64]

/-- A terminating byte joins the value with its sign and ends the operation, for either decoder and at any count
(40_unsigned_codec.md R122, 41_signed_codec.md R152). -/
theorem DecUnit.readByte_of_term (c : Codec) {b : Byte} (h : contFlag b = false) (d : DecUnit) :
    d.readByte c b =
      { d with st := .done, cnt := d.cnt + 1#4, taken := d.taken ++ [b],
               acc := d.gather (payload b) ||| shl64 (signFill c b) (groupW * (d.cnt.toNat + 1)) } := by
  rw [shl64_signFill]
  rcases d.readByte_cases c b with ⟨hk, -⟩ | ⟨-, hpos, hd⟩ | ⟨-, hc, hs, hd⟩
  · rw [h] at hk
    cases hk
  · have hnone : ¬(c = .signed ∧ signFlag b = true) := by
      rintro ⟨rfl, hs⟩
      simp [hs] at hpos
    rw [hd, DecUnit.readTerm, DecUnit.consume, mkByte_payload h, if_neg hnone, BitVec.or_zero]
  · rw [hd, DecUnit.readTermSigned, DecUnit.consume, mkByte_payload h, if_pos ⟨hc, hs⟩]

/-- From the tenth byte on the sign has no bit left to fill (41_signed_codec.md R156, R157). -/
theorem shl64_signFill_eq_zero (c : Codec) (b : Byte) {n : Nat} (h : 9 ≤ n) :
    shl64 (signFill c b) (groupW * (n + 1)) = 0#64 := shl64_eq_zero (by simp only [groupW]; omega)

/-- The eleventh byte leaves the value as it is (40_unsigned_codec.md R127, 41_signed_codec.md R157). -/
theorem DecUnit.gather_of_ten {d : DecUnit} (h : d.cnt = 10#4) (p : Payload) : d.gather p = d.acc := by
  rw [DecUnit.gather, h, groupAt_eq_zero (by decide), BitVec.or_zero]

/-- Settles O29: the read attempt is within the budget. -/
theorem decuContinuation : Obligations.DecuContinuation := by
  intro s p hst hcnt
  have hexec : exec (.decuCont p) s = .next (s.setDec .unsigned (s.decu.readCont p)) :=
    State.attempt_reading _ hst (hcnt.trans (by decide))
  rw [hexec, DecUnit.readCont_of_le hcnt, hst]
  rfl

/-- Settles O30: a terminating byte is read at every count of the rules' range, and DONE asks for no byte. -/
theorem decuTerminator : Obligations.DecuTerminator := fun _ _ hst hcnt =>
  ⟨_, State.attempt_reading _ hst hcnt, rfl, rfl⟩

/-- Settles O31: at `cnt = 10` a continuation byte is beyond the budget. -/
theorem decuOverflow : Obligations.DecuOverflow := by
  intro s p hst hcnt
  have hexec : exec (.decuCont p) s = .next (s.setDec .unsigned (s.decu.readCont p)) :=
    State.attempt_reading _ hst (hcnt ▸ by decide)
  rw [hexec, DecUnit.readCont_of_ten hcnt]
  exact ⟨_, rfl, rfl, rfl⟩

/-- Settles O38: beyond ten groups neither the payload nor the sign of a byte has a bit in the value. -/
theorem eleventhTerminatorIsOk : Obligations.EleventhTerminatorIsOk := by
  intro s c b hst hcnt hb
  have hexec : exec (.srcByte c b) s = .next (s.setDec c ((s.dec c).readByte c b)) :=
    State.attempt_reading _ hst (hcnt ▸ by decide)
  rw [hexec, DecUnit.readByte_of_term c hb, shl64_signFill_eq_zero c b (hcnt ▸ by decide), BitVec.or_zero,
    DecUnit.gather_of_ten hcnt, hcnt]
  rfl

/-- A tenth byte of either class joins its payload only (40_unsigned_codec.md R126, 41_signed_codec.md R156). -/
theorem DecUnit.acc_readByte_of_nine {d : DecUnit} (h : d.cnt = 9#4) (c : Codec) (b : Byte) :
    (d.readByte c b).acc = d.acc ||| groupAt (payload b) 9 := by
  have hgather : d.gather (payload b) = d.acc ||| groupAt (payload b) 9 := by
    rw [DecUnit.gather, h]
    rfl
  cases hb : contFlag b with
  | true => rw [DecUnit.readByte_of_cont c hb, DecUnit.readCont_of_le (h ▸ by decide), hgather]
  | false =>
    rw [DecUnit.readByte_of_term c hb]
    simp only [shl64_signFill_eq_zero c b (n := d.cnt.toNat) (h ▸ by decide), BitVec.or_zero, hgather]

/-- Group 9 has one bit in the value, bit 63 (30_encoding.md R88). -/
theorem groupAt_nine_getLsbD (b : Byte) (i : Nat) :
    (groupAt (payload b) 9).getLsbD i = (decide (i = 63) && b.getLsbD 0) := by
  rw [groupAt, shl64, BitVec.getLsbD_shiftLeft]
  by_cases hi : i = 63
  · subst hi
    simp [payload, groupW]
  · rcases Nat.lt_or_gt_of_ne hi with hlt | hgt
    · simp [groupW, hi, hlt]
    · simp [groupW, hi, Nat.not_lt.mpr (Nat.succ_le_of_lt hgt)]

/-- Settles O39: group 9 starts at bit 63, and no room is left for a sign. -/
theorem tenthByteKeepsOneBit : Obligations.TenthByteKeepsOneBit := by
  intro s c b hst hcnt
  refine ⟨(s.dec c).readByte c b, State.attempt_reading _ hst (hcnt ▸ by decide), fun i hi => ?_, ?_⟩
  · rw [DecUnit.acc_readByte_of_nine hcnt, BitVec.getLsbD_or, groupAt_nine_getLsbD, decide_eq_false (by omega),
      Bool.false_and, Bool.or_false]
  · rw [DecUnit.acc_readByte_of_nine hcnt, BitVec.getLsbD_or, groupAt_nine_getLsbD, decide_eq_true rfl,
      Bool.true_and]

/-! ### The end of input and a read error -/

/-- Settles O32: EOF is read at every count of the rules' range and writes `st` only. -/
theorem cleanEndOfInput : Obligations.CleanEndOfInput :=
  ⟨fun _ hst hcnt => State.attempt_reading (c := .unsigned) DecUnit.endOfInput hst hcnt,
    fun _ hst hcnt => State.attempt_reading (c := .signed) DecUnit.endOfInput hst hcnt⟩

/-- Settles O33: both error codes raise SourceFailure, at every count of the rules' range. -/
theorem readFailure : Obligations.ReadFailure := by
  have hraise (c : Codec) (s : State) (k : Cause) (hst : (s.dec c).st = .reading) (hcnt : (s.dec c).cnt.toNat ≤ 10) :
      s.attempt c (DecUnit.raiseSourceFailure k) =
        .next (s.setDec c { s.dec c with st := .failed, acc := 0#64, kind := .ioError, cause := k }) :=
    State.attempt_reading _ hst hcnt
  exact ⟨fun s k hst hcnt => ⟨hraise .unsigned s k hst hcnt, hraise .unsigned s k hst hcnt⟩,
    fun s k hst hcnt => ⟨hraise .signed s k hst hcnt, hraise .signed s k hst hcnt⟩⟩

end Sys2Proof.Machine
end

section
/-! SUPPORT. What the registers of a decoder say of the bytes its operation has consumed (40_unsigned_codec.md R128,
41_signed_codec.md R158, 60_exceptions.md R196), and that every rule of a decoder keeps it. -/

namespace Sys2Proof.Machine

open Sys2Proof

/-! ### One more byte of the value -/

/-- A payload that joins the value of the bytes read makes it the value of one byte more (30_encoding.md R82). -/
theorem DecUnit.gather_eq_uval_concat {d : DecUnit} {bs : List Byte} (hacc : d.acc = uval bs)
    (hcnt : d.cnt.toNat = bs.length) (b : Byte) : d.gather (payload b) = uval (bs ++ [b]) := by
  rw [DecUnit.gather, uval_concat, hacc, hcnt]

/-- The value of an encoding is that of its groups and the sign of its last byte (30_encoding.md R83). -/
theorem valueOf_concat (c : Codec) (bs : List Byte) (b : Byte) :
    valueOf c (bs ++ [b]) = uval (bs ++ [b]) ||| shl64 (signFill c b) (groupW * (bs.length + 1)) := by
  rw [shl64_signFill]
  cases c with
  | unsigned => simp [valueOf]
  | signed => simp [valueOf, sval, lastSign]

/-- A consumed byte joins the bytes of the running operation (20_memory.md R66). -/
theorem DecUnit.opBytes_readByte (c : Codec) (b : Byte) {d : DecUnit} (h : d.cnt.toNat ≤ 10) :
    (d.readByte c b).opBytes = d.opBytes ++ [b] := by
  obtain ⟨htaken, -, hcnt⟩ := d.readByte_streams c b
  rw [← DecUnit.opBytes_consume b h, DecUnit.opBytes, htaken, hcnt]
  rfl

theorem allCont_concat {bs : List Byte} {b : Byte} (hbs : allCont bs) (hb : contFlag b = true) :
    allCont (bs ++ [b]) :=
  List.forall_mem_append.mpr ⟨hbs, List.forall_mem_singleton.mpr hb⟩

/-! ### What the registers say, by `st` -/

theorem DecUnit.spells_of_idle {c : Codec} {d : DecUnit} (h : d.st = .idle) : d.Spells c :=
  fun hne => absurd h hne

/-- In READING: continuation bytes, and `acc` is their `uval`. -/
theorem DecUnit.spells_iff_of_reading {c : Codec} {d : DecUnit} (h : d.st = .reading) :
    d.Spells c ↔ d.opBytes.length = d.cnt.toNat ∧ d.cnt.toNat ≤ 10 ∧ allCont d.opBytes ∧ d.acc = uval d.opBytes := by
  simp [DecUnit.Spells, h]

/-- In DONE: continuation bytes and `acc` is their `uval`, or an encoding and `acc` is its value. -/
theorem DecUnit.spells_iff_of_done {c : Codec} {d : DecUnit} (h : d.st = .done) :
    d.Spells c ↔ d.opBytes.length = d.cnt.toNat ∧
      ((d.cnt.toNat ≤ 10 ∧ allCont d.opBytes ∧ d.acc = uval d.opBytes) ∨
      (∃ bs b, d.opBytes = bs ++ [b] ∧ bs.length ≤ 10 ∧ allCont bs ∧ contFlag b = false ∧
        d.acc = valueOf c d.opBytes)) := by
  simp [DecUnit.Spells, h]

/-- In FAILED: the bytes before the failure, and no value. -/
theorem DecUnit.spells_iff_of_failed {c : Codec} {d : DecUnit} (h : d.st = .failed) :
    d.Spells c ↔ d.opBytes.length = d.cnt.toNat ∧ allCont d.opBytes ∧ d.acc = 0#64 ∧
      (d.kind = .overflow → d.cnt.toNat = 11) ∧ (d.kind = .ioError → d.cnt.toNat ≤ 10) := by
  simp [DecUnit.Spells, h]

/-! ### Every rule keeps it -/

theorem DecUnit.Spells.accept {c : Codec} {d : DecUnit} (h : d.Spells c) : d.accept.Spells c := by
  rcases d.accept_cases with ⟨-, ha⟩ | ⟨-, ha⟩ <;> rw [ha]
  · rw [DecUnit.spells_iff_of_reading rfl]
    simp [DecUnit.opBytes, allCont, uval, uvalFrom]
  · exact h

theorem DecUnit.Spells.readByte_of_cont {c : Codec} {d : DecUnit} (h : d.Spells c) (hr : d.st = .reading) {b : Byte}
    (hb : contFlag b = true) : (d.readByte c b).Spells c := by
  obtain ⟨hlen, hle, hcont, hacc⟩ := (DecUnit.spells_iff_of_reading hr).mp h
  have hbytes := DecUnit.opBytes_readByte c b hle
  have hsucc := cnt_succ_toNat hle
  have hcont' := allCont_concat hcont hb
  have hlen' : (d.opBytes ++ [b]).length = d.cnt.toNat + 1 := by rw [List.length_append, hlen, List.length_singleton]
  rw [DecUnit.readByte_of_cont c hb] at hbytes ⊢
  rcases d.readCont_cases (payload b) with ⟨hc, hd⟩ | ⟨hc, hd⟩ <;> rw [hd] at hbytes ⊢
  · rw [DecUnit.spells_iff_of_reading (by exact hr), hbytes, hsucc]
    exact ⟨hlen', by omega, hcont', DecUnit.gather_eq_uval_concat hacc hlen.symm b⟩
  · rw [DecUnit.spells_iff_of_failed rfl, hbytes, hsucc]
    exact ⟨hlen', hcont', rfl, fun _ => by omega, nofun⟩

theorem DecUnit.Spells.readByte_of_term {c : Codec} {d : DecUnit} (h : d.Spells c) (hr : d.st = .reading) {b : Byte}
    (hb : contFlag b = false) : (d.readByte c b).Spells c := by
  obtain ⟨hlen, hle, hcont, hacc⟩ := (DecUnit.spells_iff_of_reading hr).mp h
  have hbytes := DecUnit.opBytes_readByte c b hle
  rw [DecUnit.readByte_of_term c hb] at hbytes ⊢
  rw [DecUnit.spells_iff_of_done rfl, hbytes, cnt_succ_toNat hle]
  refine ⟨by rw [List.length_append, hlen, List.length_singleton], .inr
    ⟨d.opBytes, b, rfl, hlen.trans_le hle, hcont, hb, ?_⟩⟩
  rw [valueOf_concat, DecUnit.gather_eq_uval_concat hacc hlen.symm, hlen]

theorem DecUnit.Spells.endOfInput {c : Codec} {d : DecUnit} (h : d.Spells c) (hr : d.st = .reading) :
    d.endOfInput.Spells c := by
  obtain ⟨hlen, hread⟩ := (DecUnit.spells_iff_of_reading hr).mp h
  exact (DecUnit.spells_iff_of_done rfl).mpr ⟨hlen, .inl hread⟩

theorem DecUnit.Spells.raiseSourceFailure {c : Codec} {d : DecUnit} (h : d.Spells c) (hr : d.st = .reading)
    (k : Cause) : (d.raiseSourceFailure k).Spells c := by
  obtain ⟨hlen, hle, hcont, -⟩ := (DecUnit.spells_iff_of_reading hr).mp h
  exact (DecUnit.spells_iff_of_failed rfl).mpr ⟨hlen, hcont, rfl, nofun, fun _ => hle⟩

theorem DecUnit.Spells.handOver {c : Codec} {d : DecUnit} (h : d.Spells c) (status : Status) :
    (d.handOver status).Spells c := by
  rcases d.handOver_cases status with ⟨r, -, -, hd⟩ | ⟨-, hd⟩ <;> rw [hd]
  · exact DecUnit.spells_of_idle rfl
  · exact h

/-- Whatever one transfer does to a decoder, its registers spell the bytes consumed. -/
theorem DecMove.spells {c : Codec} {d e : DecUnit} (hm : DecMove c d e) (h : d.Spells c) : e.Spells c := by
  cases hm with
  | same => exact h
  | accept => exact h.accept
  | byte b hr _ =>
    cases hb : contFlag b with
    | true => exact h.readByte_of_cont hr hb
    | false => exact h.readByte_of_term hr hb
  | eof hr _ => exact h.endOfInput hr
  | err k hr _ => exact h.raiseSourceFailure hr k
  | handOver status => exact h.handOver status

theorem State.spells_iff (s : State) : s.Spells ↔ ∀ c, (s.dec c).Spells c :=
  ⟨fun h c => by cases c with
    | unsigned => exact h.1
    | signed => exact h.2,
   fun h => ⟨h .unsigned, h .signed⟩⟩

/-- Settles O53: each transfer moves a decoder by a rule that keeps what its registers say, and a reset edge makes it
IDLE, where they say nothing. -/
theorem stepKeepsSpelling : Obligations.StepKeepsSpelling := by
  intro s t hs hst
  refine step_keeps (P := State.Spells) (fun _ _ h => h)
    (fun _ _ => ⟨DecUnit.spells_of_idle rfl, DecUnit.spells_of_idle rfl⟩) (fun w s t hw h => ?_) hst hs
  rw [State.spells_iff] at h ⊢
  exact fun c => (runWord_move hw c).2.spells (h c)

end Sys2Proof.Machine
end

section
/-! SUPPORT. Whole decode operations (40_unsigned_codec.md R128, R130, R131; 41_signed_codec.md R158, R160, R161): the
steps at the edges of one operation, and what the registers hold after the command and some continuation bytes. -/

namespace Sys2Proof.Machine

open Sys2Proof

/-! ### The edges of a decode operation -/

theorem State.setDec_setAgenda (s : State) (c : Codec) (d : DecUnit) (a : List Stimulus) :
    (s.setAgenda a).setDec c d = (s.setDec c d).setAgenda a := by
  cases c <;> rfl

theorem State.dec_setDec_setAgenda (s : State) (c : Codec) (d : DecUnit) (a : List Stimulus) :
    ((s.setDec c d).setAgenda a).dec c = d := by
  rw [State.setAgenda_dec, State.dec_setDec]

/-- A second write of the decoder and the agenda is all that remains. -/
theorem State.setDec_setAgenda_overwrite (s : State) (c : Codec) (d e : DecUnit) (a a' : List Stimulus) :
    (((s.setDec c d).setAgenda a).setDec c e).setAgenda a' = (s.setDec c e).setAgenda a' := by
  rw [State.setDec_setAgenda, State.setDec_setDec, State.setAgenda_setAgenda]

/-- A run goes on from where its first `n` steps end. -/
theorem runSteps_add {n : Nat} {s t : State} (h : runSteps n s = .next t) (m : Nat) :
    runSteps (n + m) s = runSteps m t := by
  induction n generalizing s with
  | zero =>
    cases h
    rw [Nat.zero_add]
  | succ n ih =>
    cases hstep : step s with
    | next r =>
      rw [runSteps_next hstep] at h
      rw [Nat.succ_add, runSteps_next hstep, ih h]
    | fault f => simp only [runSteps, hstep] at h; cases h
    | refused r => simp only [runSteps, hstep] at h; cases h

theorem runSteps_one (s : State) : runSteps 1 s = step s := by
  simp only [runSteps]
  cases step s <;> rfl

/-- The host's command puts a decoder in IDLE to work (42_command_and_result.md R170, R172). -/
theorem step_commandEdge {s : State} {c : Codec} {val : Word} {rest : List Stimulus} (hst : (s.dec c).st = .idle)
    (hs : s.agenda = commandEdge (decOp c) val :: rest) :
    step s = .next ((s.setDec c (s.dec c).accept).setAgenda rest) := by
  obtain ⟨inp, hedge, hrst, htransfers⟩ := commandEdge_transfers s (decOp c) val
  have hready : s.opReady (decOp c) = true := by
    rw [opReady_iff]
    cases c with
    | unsigned => exact .inr (.inl ⟨rfl, hst⟩)
    | signed => exact .inr (.inr (.inr ⟨rfl, hst⟩))
  have hword (t : State) : runWord (.command (commandWord (decOp c) val)) t = t.onDec c DecUnit.accept := by
    simp only [runWord, decode, decodeCommand_commandWord]
    cases c <;> rfl
  rw [step_edge (hedge ▸ hs) hrst, htransfers, if_pos hready, runWords_one, hword, State.onDec, State.setAgenda_dec,
    State.setDec_setAgenda]

/-- An answer of the source to a decoder in READING is one read attempt, by the rule `f` of its outcome
(20_memory.md R54). -/
theorem step_answerEdge {s : State} {c : Codec} {kind : BitVec 2} {x : Byte} {k : Cause} {rest : List Stimulus}
    {f : DecUnit → DecUnit} (hf : ∀ t, runWord (.outcome c kind x k) t = t.attempt c f)
    (hst : (s.dec c).st = .reading) (hcnt : (s.dec c).cnt.toNat ≤ 10)
    (hs : s.agenda = answerEdge c kind x k :: rest) :
    step s = .next ((s.setDec c (f (s.dec c))).setAgenda rest) := by
  obtain ⟨inp, hedge, hrst, htransfers⟩ := answerEdge_transfers s c kind x k
  rw [step_edge (hedge ▸ hs) hrst, htransfers, if_pos ((DecUnit.srcReady_iff _).mpr hst), runWords_one, hf,
    State.attempt_reading f (by rwa [State.setAgenda_dec]) (by rwa [State.setAgenda_dec]), State.setAgenda_dec,
    State.setDec_setAgenda]

/-- Outside READING an answer of the source stays in the source (20_memory.md R58). -/
theorem step_answerEdge_of_not_reading {s : State} {c : Codec} {kind : BitVec 2} {x : Byte} {k : Cause}
    {rest : List Stimulus} (hst : (s.dec c).st ≠ .reading) (hs : s.agenda = answerEdge c kind x k :: rest) :
    step s = .next (s.setAgenda rest) := by
  obtain ⟨inp, hedge, hrst, htransfers⟩ := answerEdge_transfers s c kind x k
  rw [step_edge (hedge ▸ hs) hrst, htransfers, if_neg (mt (DecUnit.srcReady_iff _).mp hst), runWords]

/-- The host takes the result that a decoder offers (42_command_and_result.md R174). -/
theorem step_resultEdge {s : State} {c : Codec} {r : DecResult} {rest : List Stimulus}
    (hr : (s.dec c).offer? = some r) (hs : s.agenda = resultEdge c :: rest) :
    step s = .next ((s.setDec c
      { s.dec c with st := .idle, results := (s.dec c).results ++ [r] }).setAgenda rest) := by
  obtain ⟨inp, hedge, hrst, htransfers⟩ := resultEdge_transfers s c
  have hword (t : State) : runWord (.status c r.status.code) t = t.onDec c (DecUnit.handOver r.status) := by
    cases r.status <;> rfl
  have htake : (s.dec c).handOver r.status = { s.dec c with st := .idle, results := (s.dec c).results ++ [r] } := by
    simp only [DecUnit.handOver, hr, if_true]
  simp only [hr] at htransfers
  rw [step_edge (hedge ▸ hs) hrst, htransfers, runWords_one, hword, State.onDec, State.setAgenda_dec, htake,
    State.setDec_setAgenda]

/-- Settles O48: each of the bytes is offered in vain, and nothing but the agenda changes. -/
theorem earlyTermination : Obligations.EarlyTermination := by
  intro c bs s rest hst hs
  induction bs generalizing s with
  | nil =>
    obtain rfl : s.agenda = rest := hs
    rfl
  | cons b bs ih =>
    rw [List.map_cons, List.cons_append] at hs
    rw [List.length_cons, runSteps_next (step_answerEdge_of_not_reading hst hs)]
    exact ih _ (by rwa [State.setAgenda_dec]) rfl

/-! ### After the command and some continuation bytes -/

/-- The decoder that was `d` in IDLE, after the command and the continuation bytes `bs`. -/
def DecUnit.readingAfter (d : DecUnit) (bs : List Byte) : DecUnit :=
  { st := .reading, acc := uval bs, cnt := BitVec.ofNat 4 bs.length, kind := .overflow, cause := 0#_,
    taken := d.taken ++ bs, results := d.results }

theorem DecUnit.accept_eq_readingAfter {d : DecUnit} (h : d.st = .idle) : d.accept = d.readingAfter [] := by
  rw [DecUnit.accept_of_idle h, DecUnit.readingAfter, List.append_nil]
  rfl

theorem DecUnit.readingAfter_cnt (d : DecUnit) {bs : List Byte} (h : bs.length ≤ 10) :
    (d.readingAfter bs).cnt.toNat = bs.length :=
  Nat.mod_eq_of_lt (by omega)

/-- A continuation byte within the budget is one more byte read. -/
theorem DecUnit.readByte_readingAfter (c : Codec) (d : DecUnit) {bs : List Byte} {b : Byte} (h : bs.length ≤ 9)
    (hb : contFlag b = true) : (d.readingAfter bs).readByte c b = d.readingAfter (bs ++ [b]) := by
  have hcnt := d.readingAfter_cnt (h.trans (by decide))
  rw [DecUnit.readByte_of_cont c hb, DecUnit.readCont_of_le (hcnt.trans_le h),
    DecUnit.gather_eq_uval_concat rfl hcnt, mkByte_payload hb]
  simp only [DecUnit.readingAfter, List.append_assoc, List.length_append, List.length_singleton, BitVec.ofNat_add]

/-- After at most ten continuation bytes one more answer of the source is read, by the rule `f` of its outcome. -/
theorem step_answer_readingAfter {c : Codec} {kind : BitVec 2} {x : Byte} {k : Cause} {f : DecUnit → DecUnit}
    (hf : ∀ t, runWord (.outcome c kind x k) t = t.attempt c f) (s : State) (d : DecUnit) {bs : List Byte}
    (hlen : bs.length ≤ 10) (rest : List Stimulus) :
    step ((s.setDec c (d.readingAfter bs)).setAgenda (answerEdge c kind x k :: rest)) =
      .next ((s.setDec c (f (d.readingAfter bs))).setAgenda rest) := by
  have hdec := s.dec_setDec_setAgenda c (d.readingAfter bs) (answerEdge c kind x k :: rest)
  rw [step_answerEdge hf (by rw [hdec]; rfl) (by rwa [hdec, d.readingAfter_cnt hlen]) rfl, hdec,
    State.setDec_setAgenda_overwrite]

/-- The command and at most ten continuation bytes, one step each. -/
theorem runSteps_readingAfter {c : Codec} {val : Word} {bs : List Byte} {s : State} {rest : List Stimulus}
    (hst : (s.dec c).st = .idle) (hcont : allCont bs) (hlen : bs.length ≤ 10)
    (hs : s.agenda = commandEdge (decOp c) val :: (bs.map (byteEdge c) ++ rest)) :
    runSteps (bs.length + 1) s = .next ((s.setDec c ((s.dec c).readingAfter bs)).setAgenda rest) := by
  induction bs using List.reverseRecOn generalizing rest with
  | nil =>
    rw [List.length_nil, runSteps_one, step_commandEdge hst hs, DecUnit.accept_eq_readingAfter hst]
    rfl
  | append_singleton bs b ih =>
    obtain ⟨hcont, hb⟩ := List.forall_mem_append.mp hcont
    rw [List.length_append, List.length_singleton] at hlen
    rw [List.map_append, List.append_assoc] at hs
    have hstep := step_answer_readingAfter (c := c) (kind := 0#2) (x := b) (k := 0#_) (fun _ => rfl) s (s.dec c)
      (Nat.le_of_succ_le hlen) rest
    rw [List.length_append, List.length_singleton, runSteps_add (ih hcont (Nat.le_of_succ_le hlen) hs) 1, runSteps_one]
    exact DecUnit.readByte_readingAfter c (s.dec c) (Nat.le_of_succ_le_succ hlen) (hb b (List.mem_singleton_self b)) ▸
      hstep

/-- The command, at most ten continuation bytes and one more answer, one step each. -/
theorem runSteps_answer {c : Codec} {kind : BitVec 2} {x : Byte} {k : Cause} {f : DecUnit → DecUnit}
    (hf : ∀ t, runWord (.outcome c kind x k) t = t.attempt c f) {val : Word} {bs : List Byte} {s : State}
    {rest : List Stimulus} (hst : (s.dec c).st = .idle) (hcont : allCont bs) (hlen : bs.length ≤ 10)
    (hs : s.agenda = commandEdge (decOp c) val :: (bs.map (byteEdge c) ++ answerEdge c kind x k :: rest)) :
    runSteps (bs.length + 2) s = .next ((s.setDec c (f ((s.dec c).readingAfter bs))).setAgenda rest) := by
  rw [runSteps_add (runSteps_readingAfter hst hcont hlen hs) 1, runSteps_one]
  exact step_answer_readingAfter hf s (s.dec c) hlen rest

/-- The agenda of a byte stream, its last byte apart. -/
theorem map_byteEdge_concat (c : Codec) (bs : List Byte) (b : Byte) (rest : List Stimulus) :
    (bs ++ [b]).map (byteEdge c) ++ rest = bs.map (byteEdge c) ++ answerEdge c 0#2 b 0#_ :: rest := by
  rw [List.map_append, List.append_assoc]
  rfl

/-! ### How a decode operation ends -/

/-- Settles O44: the terminating byte joins the value of the bytes before it, with its sign. -/
theorem decodeEndsOnTerminator : Obligations.DecodeEndsOnTerminator := by
  intro c val bs b s rest hst hcont hlen hb hs
  rw [map_byteEdge_concat] at hs
  have hcnt := (s.dec c).readingAfter_cnt hlen
  refine ⟨_, runSteps_answer (f := DecUnit.readByte c b) (fun _ => rfl) hst hcont hlen hs, ?_⟩
  rw [DecUnit.readByte_of_term c hb]
  refine ⟨?offer, (List.append_assoc ..), (cnt_succ_toNat (hcnt.trans_le hlen)).trans (congrArg (· + 1) hcnt), rfl⟩
  case offer =>
    rw [DecUnit.offer?_of_done rfl, DecUnit.gather_eq_uval_concat rfl hcnt, hcnt, ← valueOf_concat]
    rfl

/-- Settles O45: the end of input leaves the value of the bytes read. -/
theorem decodeEndsOnEndOfInput : Obligations.DecodeEndsOnEndOfInput :=
  fun c _ _ _ _ s _ hst hcont hlen hs =>
    ⟨_, runSteps_answer (f := DecUnit.endOfInput) (fun _ => rfl) hst hcont hlen hs, DecUnit.offer?_of_done rfl, rfl,
      (s.dec c).readingAfter_cnt hlen, rfl⟩

/-- Settles O46: both error codes raise SourceFailure with their cause, and the eleventh continuation byte raises
Overflow. -/
theorem decodeEndsInFailure : Obligations.DecodeEndsInFailure := by
  refine ⟨fun c val bs code x k s rest hst hcont hlen hcode hs => ?error,
    fun c val bs s rest hst hcont hlen hs => ?overflow⟩
  case error =>
    have hf (t : State) : runWord (.outcome c code x k) t = t.attempt c (DecUnit.raiseSourceFailure k) := by
      rcases hcode with rfl | rfl <;> rfl
    exact ⟨_, runSteps_answer hf hst hcont hlen hs, DecUnit.offer?_of_ioError rfl rfl, rfl,
      (s.dec c).readingAfter_cnt hlen, rfl⟩
  case overflow =>
    obtain ⟨bs, b, rfl⟩ := List.eq_nil_or_concat' bs |>.resolve_left (by rintro rfl; cases hlen)
    obtain ⟨hcont, hb⟩ := List.forall_mem_append.mp hcont
    have hb := hb b (List.mem_singleton_self b)
    have hten : bs.length = 10 := by simpa using hlen
    have hcnt : ((s.dec c).readingAfter bs).cnt = 10#4 := congrArg (BitVec.ofNat 4) hten
    rw [map_byteEdge_concat] at hs
    refine ⟨_, hten ▸ runSteps_answer (f := DecUnit.readByte c b) (fun _ => rfl) hst hcont hten.le hs, ?_⟩
    rw [DecUnit.readByte_of_cont c hb, DecUnit.readCont_of_ten hcnt, mkByte_payload hb]
    exact ⟨DecUnit.offer?_of_overflow rfl rfl, List.append_assoc .., rfl, rfl⟩

/-- Settles O47: the bytes of an encoding are a decode operation that ends on its terminating byte with the value they
spell, and the host takes it. -/
theorem roundTripOnTheMachine : Obligations.RoundTripOnTheMachine := by
  intro c v val s rest hst hs
  obtain ⟨bs, b, hbytes, hcont, hb⟩ := encodeFuel_eq_concat (fitsIn_nine c v)
  change encodeValue c v = _ at hbytes
  have hlen := encodeValue_length_le_ten c v
  have hvalue : valueOf c (bs ++ [b]) = v := hbytes ▸ valueOfEncoding c v
  rw [hbytes, List.length_append, List.length_singleton] at hlen
  rw [hbytes] at hs ⊢
  obtain ⟨d, hrun, hoffer, htaken, -, hresults⟩ :=
    decodeEndsOnTerminator c val bs b s _ hst hcont (Nat.le_of_succ_le hlen) hb hs
  rw [hvalue] at hoffer
  have hdec := s.dec_setDec_setAgenda c d (resultEdge c :: rest)
  have htake := step_resultEdge (hdec.symm ▸ hoffer) rfl
  rw [hdec, State.setDec_setAgenda_overwrite] at htake
  rw [List.length_append, List.length_singleton, runSteps_add hrun 1, runSteps_one]
  exact ⟨_, htake, rfl, htaken, congrArg (· ++ _) hresults⟩

end Sys2Proof.Machine
end

section
/-! SUPPORT. The signed codec's rules at one byte (41_signed_codec.md R141, R142, R151 to R153). -/

namespace Sys2Proof.Machine

open Sys2Proof

/-! ### The byte ENCS presents -/

theorem lowGroup_getLsbD_six (r : Word) : (lowGroup r).getLsbD 6 = r.getLsbD 6 := by
  simp [lowGroup]

theorem nextRem_signed_eq_zero_iff (r : Word) : nextRem .signed r = 0#64 ↔ r.toInt / 128 = 0 := by
  rw [← BitVec.toInt_inj, nextRem_signed_toInt, BitVec.toInt_zero]

theorem nextRem_signed_eq_allOnes_iff (r : Word) : nextRem .signed r = BitVec.allOnes 64 ↔ r.toInt / 128 = -1 := by
  rw [← BitVec.toInt_inj, nextRem_signed_toInt, BitVec.toInt_allOnes, if_pos (by decide)]

/-- The two ways in which R141 (41_signed_codec.md) stops, on the signed value and its bit 6. -/
theorem moreFollows_signed_eq_false_iff_stop (r : Word) : moreFollows .signed r = false ↔
    (r.toInt / 128 = 0 ∧ r.getLsbD 6 = false) ∨ (r.toInt / 128 = -1 ∧ r.getLsbD 6 = true) := by
  simp only [moreFollows, Bool.not_eq_false', Bool.or_eq_true, Bool.and_eq_true, beq_iff_eq, Bool.not_eq_true',
    lowGroup_getLsbD_six, nextRem_signed_eq_zero_iff, nextRem_signed_eq_allOnes_iff]

/-- Settles O17: the payload is the remainder modulo 128, and the flag is clear where R141 stops. -/
theorem encsPresentedByte : Obligations.EncsPresentedByte := by
  refine ⟨fun _ => EncUnit.offer?_of_emit, fun r => ⟨?payload, nextRem_signed_toInt r, ?flag⟩⟩
  case payload => rw [payload_nextByte, lowGroup_toNat]
  case flag => rw [contFlag_nextByte, moreFollows_signed_eq_false_iff_stop]

/-- Settles O19: ENCS hands over its presented byte, or waits, by the same rules as ENCU. -/
theorem encsStep : Obligations.EncsStep :=
  ⟨fun _ _ => onEnc_emitByte_of_presented (c := .signed), fun _ _ => onEnc_emitByte_of_presented (c := .signed),
    fun _ _ _ _ => enc_waits (c := .signed)⟩

/-! ### A byte read by DECS -/

/-- A read attempt that meets a continuation byte runs `DecUnit.readCont`, whatever the count of the rules' range. -/
theorem exec_decsCont_of_reading {s : State} (hst : s.decs.st = .reading) (hcnt : s.decs.cnt.toNat ≤ 10)
    (p : Payload) : exec (.decsCont p) s = .next (s.setDec .signed (s.decs.readCont p)) :=
  State.attempt_reading _ hst hcnt

/-- Settles O34: the read attempt is within the budget, and a continuation byte carries no sign. -/
theorem decsContinuation : Obligations.DecsContinuation := by
  intro s p hst hcnt
  rw [exec_decsCont_of_reading hst (hcnt.trans (by decide)), DecUnit.readCont_of_le hcnt, hst]
  rfl

/-- Settles O35: each class of terminator is read by its own rule; bit 6 says which class a payload belongs to. -/
theorem decsTerminator : Obligations.DecsTerminator := fun _ _ hst hcnt =>
  ⟨fun _ => State.attempt_reading _ hst hcnt, fun _ => State.attempt_reading _ hst hcnt⟩

/-- Settles O36: at `cnt = 10` a continuation byte is beyond the budget, and FAILED asks for no byte. -/
theorem decsOverflow : Obligations.DecsOverflow := by
  intro s p hst hcnt
  rw [exec_decsCont_of_reading hst (hcnt ▸ by decide), DecUnit.readCont_of_ten hcnt]
  exact ⟨_, rfl, rfl, rfl⟩

end Sys2Proof.Machine
end

section
/-! SUPPORT. Starting an operation and handing over its result: the acceptance of a command
(42_command_and_result.md R170 to R173) and the result transfer (R174). -/

namespace Sys2Proof.Machine

open Sys2Proof

/-! ### The acceptance of a command -/

/-- A busy encoder does not accept (42_command_and_result.md R173). -/
theorem EncUnit.accept_of_busy {e : EncUnit} (h : e.st ≠ .idle) (val : Word) : e.accept val = e := by
  rcases e.accept_cases val with ⟨hidle, -⟩ | ⟨-, he⟩
  · exact absurd hidle h
  · exact he

/-- A busy decoder does not accept (42_command_and_result.md R173). -/
theorem DecUnit.accept_of_busy {d : DecUnit} (h : d.st ≠ .idle) : d.accept = d := by
  rcases d.accept_cases with ⟨hidle, -⟩ | ⟨-, hd⟩
  · exact absurd hidle h
  · exact hd

theorem EncUnit.ready_eq_false {e : EncUnit} (h : e.st ≠ .idle) : e.ready = false :=
  Bool.eq_false_iff.mpr (mt e.ready_iff.mp h)

theorem DecUnit.ready_eq_false {d : DecUnit} (h : d.st ≠ .idle) : d.ready = false :=
  Bool.eq_false_iff.mpr (mt d.ready_iff.mp h)

/-- An encoder in IDLE takes the operand into `rem` and goes to EMIT (42_command_and_result.md R171). -/
theorem onEnc_accept_of_idle {s : State} {c : Codec} (h : (s.enc c).st = .idle) (val : Word) :
    s.onEnc c (EncUnit.accept val) = .next (s.setEnc c { s.enc c with st := .emit, rem := val }) := by
  rw [State.onEnc, EncUnit.accept_of_idle h]

/-- A decoder in IDLE clears its working registers and goes to READING (42_command_and_result.md R172). -/
theorem onDec_accept_of_idle {s : State} {c : Codec} (h : (s.dec c).st = .idle) :
    s.onDec c DecUnit.accept = .next (s.setDec c
      { s.dec c with st := .reading, acc := 0#64, cnt := 0#4, kind := .overflow, cause := 0#_ }) := by
  rw [State.onDec, DecUnit.accept_of_idle h]

/-- Settles O12: an accepting encoder is in EMIT with the operand in `rem`, so it presents the operand's first byte. -/
theorem encoderAcceptsCommand : Obligations.EncoderAcceptsCommand := fun _ val =>
  ⟨fun hst => ⟨onEnc_accept_of_idle (c := .unsigned) hst val, EncUnit.offer?_of_emit rfl⟩,
    fun hst => ⟨onEnc_accept_of_idle (c := .signed) hst val, EncUnit.offer?_of_emit rfl⟩⟩

/-- Settles O13: an accepting decoder is in READING, where `src_ready` is 1. -/
theorem decoderAcceptsCommand : Obligations.DecoderAcceptsCommand := fun _ _ =>
  ⟨fun hst => ⟨_, onDec_accept_of_idle (c := .unsigned) hst, rfl, rfl⟩,
    fun hst => ⟨_, onDec_accept_of_idle (c := .signed) hst, rfl, rfl⟩⟩

/-- Settles O14: the unit's bit of `cmd_ready` is whether it is in IDLE, and outside IDLE it does not accept. -/
theorem busyUnitDoesNotAccept : Obligations.BusyUnitDoesNotAccept := by
  intro s val
  obtain ⟨h0, h1, h2, h3⟩ := cmdReady_getLsbD s
  refine ⟨fun hst => ⟨h0.trans (EncUnit.ready_eq_false hst), ?encu⟩,
    fun hst => ⟨h1.trans (DecUnit.ready_eq_false hst), ?decu⟩,
    fun hst => ⟨h2.trans (EncUnit.ready_eq_false hst), ?encs⟩,
    fun hst => ⟨h3.trans (DecUnit.ready_eq_false hst), ?decs⟩⟩
  case encu => exact State.onEnc_eq_self (c := .unsigned) (EncUnit.accept_of_busy hst val)
  case decu => exact State.onDec_eq_self (c := .unsigned) (DecUnit.accept_of_busy hst)
  case encs => exact State.onEnc_eq_self (c := .signed) (EncUnit.accept_of_busy hst val)
  case decs => exact State.onDec_eq_self (c := .signed) (DecUnit.accept_of_busy hst)

/-! ### The result transfer -/

/-- The offered result is handed over, and the decoder goes to IDLE with its other registers unchanged
(42_command_and_result.md R174, 60_exceptions.md R198). -/
theorem onDec_handOver_of_offer? {s : State} {c : Codec} {r : DecResult} (h : (s.dec c).offer? = some r) :
    s.onDec c (DecUnit.handOver r.status) =
      .next (s.setDec c { s.dec c with st := .idle, results := (s.dec c).results ++ [r] }) := by
  simp only [State.onDec, DecUnit.handOver, h, if_true]

/-- A decoder that offers a result is open at its result port only. -/
theorem openAt_dec_of_ended {s : State} {c : Codec} (h : (s.dec c).st = .done ∨ (s.dec c).st = .failed) :
    s.openAt (.dec c) = .result c := by
  rcases h with h | h <;> simp only [openAt_dec, DecUnit.openAt, h]

/-- Settles O42: the result offered in each of the three cases is the one taken, and a decoder whose result the host
does not take is open at no other port. -/
theorem resultTransfer : Obligations.ResultTransfer := by
  refine ⟨fun s c hst => ?ok, fun s c hst hkind => ?overflow, fun s c hst hkind => ?srcFail,
    fun c s t inp rest hst hs hrst hready h => ?waits⟩
  case ok => exact onDec_handOver_of_offer? (DecUnit.offer?_of_done hst)
  case overflow => exact onDec_handOver_of_offer? (DecUnit.offer?_of_overflow hst hkind)
  case srcFail => exact onDec_handOver_of_offer? (DecUnit.offer?_of_ioError hst hkind)
  case waits =>
    exact (sameUnit_dec c s t).mp (sameUnit_of_not_offered hs hrst ((openAt_dec_of_ended hst).symm ▸ hready) h)

end Sys2Proof.Machine
end

section
/-! SUPPORT. The order of the transfers of one edge (42_command_and_result.md R183, 70_reset_and_hazards.md R240): each
unit ends as its own transfer, run alone, leaves it, so no order shows. -/

namespace Sys2Proof.Machine

open Sys2Proof

/-- A state is its four units, the agenda and the free-value counter. -/
theorem State.eq_of_sameUnit {s t : State} (hunits : ∀ u, sameUnit u s t) (hagenda : t.agenda = s.agenda)
    (hfree : t.freeIdx = s.freeIdx) : t = s := by
  have hencu : t.encu = s.encu := hunits .encu
  have hdecu : t.decu = s.decu := hunits .decu
  have hencs : t.encs = s.encs := hunits .encs
  have hdecs : t.decs = s.decs := hunits .decs
  cases s
  cases t
  simp_all

theorem runWords_freeIdx {l : List PortWord} {s t : State} (h : runWords l s = .next t) : t.freeIdx = s.freeIdx := by
  refine runWords_keeps (P := fun r => r.freeIdx = s.freeIdx) (fun w p q hpq hp => ?_) l s t h rfl
  obtain ⟨-, -, hfree⟩ := (unitAction_of_runWord_next hpq).frame hpq
  exact hfree.trans hp

/-- The same transfers of different units, run in two orders, end in the same state if both runs complete. -/
theorem runWords_next_unique {l m : List PortWord} (hl : (l.map unitOfWord).Nodup) (hlm : m.Perm l) {s t t' : State}
    (h : runWords l s = .next t) (h' : runWords m s = .next t') : t' = t := by
  obtain ⟨hframe, hagenda⟩ := runWords_frame h
  obtain ⟨hframe', hagenda'⟩ := runWords_frame h'
  refine State.eq_of_sameUnit (fun u => ?_) (hagenda'.trans hagenda.symm)
    ((runWords_freeIdx h').trans (runWords_freeIdx h).symm)
  by_cases hu : ∃ w ∈ l, unitOfWord w = u
  · obtain ⟨w, hw, rfl⟩ := hu
    obtain ⟨r, hr, hrt⟩ := runWords_each hl h w hw
    obtain ⟨r', hr', hrt'⟩ := runWords_each ((hlm.map _).nodup_iff.mpr hl) h' w (hlm.mem_iff.mpr hw)
    obtain rfl : r = r' := Host.Outcome.next.inj (hr.symm.trans hr')
    exact sameUnit_trans (sameUnit_symm hrt) hrt'
  · push Not at hu
    exact sameUnit_trans (sameUnit_symm (hframe u hu)) (hframe' u fun w hw => hu w (hlm.mem_iff.mp hw))

/-- Transfers of different units that complete in one order complete in every order, in the same state. -/
theorem runWords_next_of_perm {l m : List PortWord} (hl : (l.map unitOfWord).Nodup) (hlm : m.Perm l) {s t : State}
    (h : runWords l s = .next t) : runWords m s = .next t := by
  have halone : ∀ w ∈ m, ∃ r, runWord w s = .next r := fun w hw =>
    (runWords_each hl h w (hlm.mem_iff.mp hw)).imp fun _ => And.left
  obtain ⟨t', ht'⟩ := runWords_completes ((hlm.map _).nodup_iff.mpr hl) halone
  rw [ht', runWords_next_unique hl hlm h ht']

/-- Transfers of instructions complete, or stop with the model's only fault (log 10). -/
theorem runWords_next_or_fault {l : List PortWord} (hl : ∀ w ∈ l, ∃ i, decode w = .ok i) (s : State) :
    (∃ t, runWords l s = .next t) ∨ runWords l s = .fault .countOutOfRange := by
  cases h : runWords l s with
  | next t => exact .inl ⟨t, rfl⟩
  | fault f => cases f; exact .inr rfl
  | refused r => exact absurd h (runWords_ne_refused hl s r)

/-- Transfers of instructions of different units give the same answer in every order. -/
theorem runWords_perm {l m : List PortWord} (hl : (l.map unitOfWord).Nodup) (hdec : ∀ w ∈ l, ∃ i, decode w = .ok i)
    (hlm : m.Perm l) (s : State) : runWords m s = runWords l s := by
  rcases runWords_next_or_fault hdec s with ⟨t, ht⟩ | hfault
  · rw [ht, runWords_next_of_perm hl hlm ht]
  · rcases runWords_next_or_fault (fun w hw => hdec w (hlm.mem_iff.mp hw)) s with ⟨t, ht⟩ | hfault'
    · rw [ht, runWords_next_of_perm ((hlm.map _).nodup_iff.mpr hl) hlm.symm ht]
    · rw [hfault, hfault']

/-- Settles O50: the transfers of an edge are instructions of different units. -/
theorem edgeOrderDoesNotMatter : Obligations.EdgeOrderDoesNotMatter := fun s inp =>
  ⟨transfers_units_nodup s inp, fun _ hl =>
    runWords_perm (transfers_units_nodup s inp) (fun _ => decode_of_mem_transfers) hl s⟩

end Sys2Proof.Machine
end

section
/-! SUPPORT. A whole encoder operation (40_unsigned_codec.md R115, 41_signed_codec.md R145): the steps at its edges, one
byte of the encoding each. -/

namespace Sys2Proof.Machine

open Sys2Proof

/-! ### The edges of an encoder operation -/

theorem State.setEnc_setAgenda (s : State) (c : Codec) (e : EncUnit) (a : List Stimulus) :
    (s.setAgenda a).setEnc c e = (s.setEnc c e).setAgenda a := by
  cases c <;> rfl

/-- The host's command puts an encoder in IDLE to work (42_command_and_result.md R170, R171). -/
theorem step_encCommandEdge {s : State} {c : Codec} {val : Word} {rest : List Stimulus} (hst : (s.enc c).st = .idle)
    (hs : s.agenda = commandEdge (encOp c) val :: rest) :
    step s = .next ((s.setEnc c { st := .emit, rem := val, out := (s.enc c).out }).setAgenda rest) := by
  obtain ⟨inp, hedge, hrst, htransfers⟩ := commandEdge_transfers s (encOp c) val
  have hready : s.opReady (encOp c) = true := by
    rw [opReady_iff]
    cases c with
    | unsigned => exact .inl ⟨rfl, hst⟩
    | signed => exact .inr (.inr (.inl ⟨rfl, hst⟩))
  have hword (t : State) : runWord (.command (commandWord (encOp c) val)) t = t.onEnc c (EncUnit.accept val) := by
    simp only [runWord, decode, decodeCommand_commandWord]
    cases c <;> rfl
  rw [step_edge (hedge ▸ hs) hrst, htransfers, if_pos hready, runWords_one, hword,
    onEnc_accept_of_idle (by rwa [State.setAgenda_enc]), State.setAgenda_enc, State.setEnc_setAgenda]

/-- A ready consumer takes the byte that an encoder in EMIT presents, and the encoder goes on if more bytes follow
(20_memory.md R56, 40_unsigned_codec.md R112, 41_signed_codec.md R142). -/
theorem step_takeEdge (s : State) (c : Codec) (r : Word) (out : List Byte) (rest : List Stimulus) :
    step ((s.setEnc c { st := .emit, rem := r, out := out }).setAgenda (takeEdge c :: rest)) =
      .next ((s.setEnc c { st := if moreFollows c r then .emit else .idle, rem := nextRem c r,
                           out := out ++ [nextByte c r] }).setAgenda rest) := by
  obtain ⟨inp, hedge, hrst, htransfers⟩ :=
    takeEdge_transfers ((s.setEnc c { st := .emit, rem := r, out := out }).setAgenda (takeEdge c :: rest)) c
  have hword (t : State) (b : Byte) : runWord (.outByte c b) t = t.onEnc c (EncUnit.emitByte c b) :=
    (runWord_eq_exec rfl t).trans (exec_outByte c b t)
  simp only [State.setAgenda_enc, State.enc_setEnc] at htransfers
  rw [step_edge (congrArg (· :: rest) hedge) hrst, htransfers, runWords_one, hword, State.onEnc,
    State.setAgenda_setAgenda, State.setAgenda_enc, State.enc_setEnc, State.setEnc_setAgenda, State.setEnc_setEnc]
  simp only [EncUnit.emitByte, if_true, contFlag_nextByte]

/-! ### The bytes of an operation -/

/-- From EMIT with remainder `r` a ready consumer is handed the bytes that are left, and the encoder ends in IDLE. -/
theorem runSteps_takeEdges {c : Codec} {fuel : Nat} {r : Word} (hr : FitsIn c fuel r) (s : State) (out : List Byte)
    (rest : List Stimulus) :
    ∃ rem, runSteps (encodeFuel c (fuel + 1) r).length ((s.setEnc c { st := .emit, rem := r, out := out }).setAgenda
        (List.replicate (encodeFuel c (fuel + 1) r).length (takeEdge c) ++ rest)) =
      .next ((s.setEnc c { st := .idle, rem := rem, out := out ++ encodeFuel c (fuel + 1) r }).setAgenda rest) := by
  induction fuel, r, hr using FitsIn.byteInduction generalizing out with
  | last fuel r hr hm =>
    have hstep := step_takeEdge s c r out rest
    rw [hm, if_neg Bool.false_ne_true] at hstep
    rw [encodeFuel_of_last hm]
    exact ⟨nextRem c r, (runSteps_one _).trans hstep⟩
  | more fuel r hr hrem hm ih =>
    obtain ⟨rem, hrun⟩ := ih (out ++ [nextByte c r])
    have hstep := step_takeEdge s c r out
      (List.replicate (encodeFuel c (fuel + 1) (nextRem c r)).length (takeEdge c) ++ rest)
    rw [hm, if_pos rfl] at hstep
    rw [List.append_assoc] at hrun
    rw [encodeFuel_of_more hm]
    exact ⟨rem, (runSteps_next hstep).trans hrun⟩

/-- Settles O28: the command loads the operand, and each further edge hands over one byte of its encoding. -/
theorem encoderOperation : Obligations.EncoderOperation := by
  intro c v s rest hst hs
  obtain ⟨rem, hrun⟩ := runSteps_takeEdges (fitsIn_nine c v) s (s.enc c).out rest
  exact ⟨rem, (runSteps_add ((runSteps_one s).trans (step_encCommandEdge hst hs)) _).trans hrun⟩

end Sys2Proof.Machine
end

section
/-! SUPPORT. How a unit comes to IDLE: by a reset edge, or by the end of its operation
(70_reset_and_hazards.md R220, R221). -/

namespace Sys2Proof.Machine

open Sys2Proof

/-! ### A reset edge -/

/-- A reset edge puts every unit in IDLE (70_reset_and_hazards.md R220). -/
theorem State.resetUnits_idle (s : State) (u : UnitName) : s.resetUnits.unitIdle u := by
  cases u <;> rfl

/-! ### The end of an operation -/

/-- A byte in READING never brings a decoder to IDLE: the operation runs on, or it ends in DONE or FAILED with its
result still to be taken. -/
theorem DecUnit.readByte_st_ne_idle {d : DecUnit} (hr : d.st = .reading) (hc : d.cnt.toNat ≤ 10) (c : Codec)
    (b : Byte) : (d.readByte c b).st ≠ .idle := by
  cases hb : contFlag b with
  | false => simp [DecUnit.readByte_st_of_term hb]
  | true =>
    obtain ⟨hwithin, heleventh⟩ := DecUnit.readByte_st_of_cont (c := c) hb d
    rcases Nat.le_or_eq_of_le_succ hc with hle | hten
    · simp [hwithin hle, hr]
    · simp [(heleventh hten).1]

/-- The only move that brings a busy encoder to IDLE is the hand-over of a byte with bit 7 clear
(40_unsigned_codec.md R112, 41_signed_codec.md R142). -/
theorem EncMove.emits_last_of_idle {c : Codec} {e f : EncUnit} (h : EncMove c e f) (he : e.st ≠ .idle)
    (hf : f.st = .idle) : ∃ b, contFlag b = false ∧ f.out = e.out ++ [b] := by
  cases h with
  | same => exact absurd hf he
  | accept val => exact absurd (EncUnit.accept_of_busy he val ▸ hf) he
  | emit b =>
    rcases e.emitByte_cases c b with ⟨-, -, hemit⟩ | ⟨-, hsame⟩
    · rw [hemit] at hf ⊢
      cases hb : contFlag b with
      | false => exact ⟨b, hb, rfl⟩
      | true => simp [hb] at hf
    · exact absurd (hsame ▸ hf) he

/-- The only move that brings a busy decoder to IDLE is the hand-over of the result it offers
(42_command_and_result.md R174, 60_exceptions.md R198). -/
theorem DecMove.hands_over_of_idle {c : Codec} {d f : DecUnit} (h : DecMove c d f) (hd : d.st ≠ .idle)
    (hf : f.st = .idle) : ∃ r, d.offer? = some r ∧ f.results = d.results ++ [r] := by
  cases h with
  | same => exact absurd hf hd
  | accept => exact absurd (DecUnit.accept_of_busy hd ▸ hf) hd
  | byte b hr hc => exact absurd hf (DecUnit.readByte_st_ne_idle hr hc c b)
  | eof _ _ => cases hf
  | err k _ _ => cases hf
  | handOver status =>
    rcases d.handOver_cases status with ⟨r, hr, -, htaken⟩ | ⟨-, hsame⟩
    · exact ⟨r, hr, by rw [htaken]⟩
    · exact absurd (hsame ▸ hf) hd

/-- A step that is no reset edge moves each unit by the unit's own rules. -/
theorem step_moves_of_not_reset {s t : State} (hrst : ∀ inp rest, s.agenda = .edge inp :: rest → inp.rst = false)
    (h : step s = .next t) (c : Codec) : EncMove c (s.enc c) (t.enc c) ∧ DecMove c (s.dec c) (t.dec c) := by
  rcases step_resets_or_moves h with ⟨inp, rest, hs, hreset, -⟩ | hmove
  · exact absurd (hrst inp rest hs) (by simp [hreset])
  · exact hmove c

/-- Settles O57: a reset edge is the reset action and nothing else; at every other step each unit makes one of its own
moves, of which only the end of its operation leads to IDLE. -/
theorem resetEdge : Obligations.ResetEdge := by
  refine ⟨fun s inp rest hs hrst => ?reset, fun s t hrst h => ⟨fun c => ?encoder, fun c => ?decoder⟩⟩
  case reset =>
    have hidle := (s.setAgenda rest).resetUnits_idle
    obtain ⟨houtu, htakenu, hresultsu⟩ := (s.setAgenda rest).resetUnits_streams .unsigned
    obtain ⟨houts, htakens, hresultss⟩ := (s.setAgenda rest).resetUnits_streams .signed
    exact ⟨_, step_reset hs hrst, rfl, hidle .encu, hidle .encs, hidle .decu, hidle .decs, houtu, houts, htakenu,
      htakens, hresultsu, hresultss⟩
  case encoder =>
    obtain ⟨henc, -⟩ := step_moves_of_not_reset hrst h c
    exact henc.emits_last_of_idle
  case decoder =>
    obtain ⟨-, hdec⟩ := step_moves_of_not_reset hrst h c
    exact hdec.hands_over_of_idle

end Sys2Proof.Machine
end
